-- ==== Sys2Proof/Word.lean ====
section
/-! DEFINITION. The byte, the only word of the block (00_scope.md R7), and frames and records as lists of bytes (R8). -/

namespace Sys2Proof

/-- A byte, bits 7..0 (00_scope.md R7). -/
abbrev Byte := BitVec 8

/-- A frame: the bytes of one transfer, byte 0 shifted out first (00_scope.md R8, 20_memory.md R50). -/
abbrev Frame := List Byte

/-- A command record: the bytes of one command, its tag first (30_encoding.md R80). -/
abbrev Record := List Byte

/-- A matrix glyph: eight row bytes, row 0 first (44_font_table.md R173, 00_scope.md R6). -/
abbrev Glyph := Vector Byte 8

end Sys2Proof
end

