-- ==== Sys2Proof/Syntax.lean ====
section
/-! DEFINITION. The commands of the block as one inductive type (30_encoding.md R82, R85), one constructor per row of
spec/opcode_table.json. Field types make most illegal field values of R81 unspellable. -/

namespace Sys2Proof

/-- The two chip families, selected at construction (10_state.md R25). -/
inductive Mode where
  | matrix
  | digit
deriving DecidableEq, Repr, Inhabited

/-- The closed enumeration of fourteen registers (30_encoding.md R71); `digit r` is `Digit(r)` (00_scope.md R13). -/
inductive Register where
  | noOp
  | digit (r : Fin 8)
  | decodeMode
  | intensity
  | scanLimit
  | shutdown
  | displayTest
deriving DecidableEq, Repr, Inhabited

/-- The termination modes of a scroll (00_scope.md R14, 10_state.md R29). -/
inductive TMode where
  | loop
  | bounce
  | once
deriving DecidableEq, Repr, Inhabited

/-- The abstract commands (30_encoding.md R85). A `u8` operand is a `Byte`. A character operand is a Lean `Char`, which is
exactly a Unicode scalar value (R81; 92_eei_decisions.md D33; log 12). `setIntensity` is the pseudo-instruction of R87: it has
no words of its own (log 9). -/
inductive Instr where
  | new (n : Byte) (mode : Mode)
  | deviceCount
  | writeOne (dev : Byte) (reg : Register) (val : Byte)
  | writeBcast (reg : Register) (val : Byte)
  | writeAll (reg : Register) (vals : List Byte)
  | init
  | pclear
  | setPixel (dev row col : Byte) (on : Bool)
  | getPixel (dev row col : Byte)
  | setDigit (dev pos : Byte) (ch : Char) (dp : Bool)
  | writeGlyph (dev roff : Byte) (bitmap : List Byte)
  | getRow (dev row : Byte)
  | flush
  | bclear
  | glyphFor (ch : Char)
  | glyphForStrict (ch : Char)
  | scrollStart (tmode : TMode) (chars : List Char)
  | scrollStep
  | scrollFinished
  | scrollStop
  | setIntensity (v : Byte)
deriving DecidableEq, Repr, Inhabited

/-- The core command a pseudo-instruction stands for: `SET_INTENSITY v` is `WRITE_BCAST Intensity, v` (30_encoding.md R87). -/
def Instr.expand : Instr → Instr
  | .setIntensity v => .writeBcast .intensity v
  | i => i

end Sys2Proof
end

