-- ==== Sys2Proof/Config.lean ====
section
/-! DEFINITION. The implementation parameters of 00_scope.md R6 and the free values the host supplies. A `Config` is plain
data whose field types admit exactly the configurations of 70_reset_and_hazards.md R253, so an inadmissible one cannot be built. -/

namespace Sys2Proof

/-- The host's error value, passed on verbatim and never looked at (60_exceptions.md R221, R229; log 6). -/
abbrev HostError := Nat

/-- What the host answers a `Transfer` with (60_exceptions.md R236). -/
inductive HostResult where
  | ok
  | err (e : HostError)
deriving DecidableEq, Repr, Inhabited

/-- The parameters of one block instance (00_scope.md R6). The bounds of R253 are in the types: MAX_DEVICES is 1..255,
DIGIT_COUNT 1..8, DEFAULT_INTENSITY 0..15, SCROLL_GAP 0..255, MAX_SCROLL_CHARS at least 1. The two defaults that R6 names,
DIGIT_COUNT 8 and SCROLL_GAP 1, are the defaults of their fields; `Config.actual` may have any other value of the range (log 4).
A font is a table from characters to glyphs, and SUPPORTED is the set of its characters (log 5). -/
structure Config where
  maxDevicesLess1     : Fin 255
  digitCountLess1     : Fin 8 := 7
  defaultIntensity    : Fin 16
  scrollGap           : Fin 256 := 1
  maxScrollCharsLess1 : Nat
  fontM               : List (Char × Glyph)
  fontD               : List (Char × Byte)
deriving DecidableEq, Repr, Inhabited

/-- MAX_DEVICES, the largest chain the block admits (00_scope.md R6). -/
def Config.maxDevices (c : Config) : Nat := c.maxDevicesLess1.val + 1

/-- DIGIT_COUNT, the digit positions in use in digit mode; 8 by default (00_scope.md R6). -/
def Config.digitCount (c : Config) : Nat := c.digitCountLess1.val + 1

/-- MAX_SCROLL_CHARS, the longest text `SCROLL_START` admits (00_scope.md R6). -/
def Config.maxScrollChars (c : Config) : Nat := c.maxScrollCharsLess1 + 1

/-- DEFAULT_INTENSITY as the byte `INIT` writes (00_scope.md R6). -/
def Config.intensityByte (c : Config) : Byte := BitVec.ofNat 8 c.defaultIntensity.val

/-- SCROLL_GAP, the blank columns between two glyphs of a strip; 1 by default (00_scope.md R6). -/
def Config.gap (c : Config) : Nat := c.scrollGap.val

/-- The configuration of the machine that starts at `State.reset`: uninterpreted, so that nothing is assumed of any OPEN
parameter (92_eei_decisions.md D11, D12, D16, D18; log 4). -/
opaque Config.actual : Config

/-- The free result of transfer number `k`, where the state lists no result for it (60_exceptions.md R237; log 2). -/
opaque Config.freeTransferResult : Nat → HostResult

end Sys2Proof
end

