-- ==== Sys2Proof/WellFormed.lean ====
section
/-! DEFINITION. Which abstract commands a command record can spell (30_encoding.md R81, R84): the list operands' lengths. The
other field checks are in the types of `Instr`; the checks that need the instance are the meanings' (R88 (c)-(g)). -/

namespace Sys2Proof

/-- A `WRITE_ALL` list is one value per device of a chain of 1..255 devices (30_encoding.md R82, R84; 10_state.md R23). -/
def valsWf (vals : List Byte) : Bool := decide (1 ≤ vals.length ∧ vals.length ≤ 255)

/-- A `WRITE_GLYPH` bitmap has a `u8` length (30_encoding.md R81; 43_display_buffer.md R147). -/
def bitmapWf (bitmap : List Byte) : Bool := decide (bitmap.length ≤ 255)

/-- A `SCROLL_START` text has a `u8` count (30_encoding.md R81). -/
def charsWf (chars : List Char) : Bool := decide (chars.length ≤ 255)

/-- The command can be written as a record (30_encoding.md R80, R84). -/
def Instr.wf : Instr → Bool
  | .new _ _ => true
  | .deviceCount => true
  | .writeOne _ _ _ => true
  | .writeBcast _ _ => true
  | .writeAll _ vals => valsWf vals
  | .init => true
  | .pclear => true
  | .setPixel _ _ _ _ => true
  | .getPixel _ _ _ => true
  | .setDigit _ _ _ _ => true
  | .writeGlyph _ _ bitmap => bitmapWf bitmap
  | .getRow _ _ => true
  | .flush => true
  | .bclear => true
  | .glyphFor _ => true
  | .glyphForStrict _ => true
  | .scrollStart _ chars => charsWf chars
  | .scrollStep => true
  | .scrollFinished => true
  | .scrollStop => true
  | .setIntensity _ => true

end Sys2Proof
end

