-- ==== Sys2Proof/Decode.lean ====
section
/-! DEFINITION. The encoding tables (30_encoding.md R72, R81-R84, R86), the decoder from a command record to a command, total
on any bytes and rejecting by name (R88 (a)-(c)), and the encoder written from the same tables. -/

namespace Sys2Proof

/-- Why a record spells no command (30_encoding.md R88 (a)-(c)). Raised by `decode` only; safe: the run stops where the spec
says the model has no meaning. -/
inductive Reject where
  /-- R86, R88 (a): the tag is reserved. -/
  | reservedTag (tag : Byte)
  /-- R88 (b): the record is truncated, or longer than R84 gives. -/
  | badLength
  /-- R88 (c): `reg` is not a code of R72. -/
  | badRegister (code : Byte)
  /-- R88 (c): `on` or `dp` is not 0 or 1. -/
  | badFlag (b : Byte)
  /-- R88 (c): `mode` is not 0 or 1. -/
  | badMode (b : Byte)
  /-- R88 (c): `tmode` is not 0, 1 or 2. -/
  | badTMode (b : Byte)
  /-- R88 (c): `ch` is not a Unicode scalar value. -/
  | badChar (v : BitVec 32)
deriving DecidableEq, Repr

/-- The register code bytes, REG_CODE (30_encoding.md R72; log 10). -/
def regCode : Register → Byte
  | .noOp => 0x00#8
  | .digit r => BitVec.ofNat 8 (r.val + 1)
  | .decodeMode => 0x09#8
  | .intensity => 0x0A#8
  | .scanLimit => 0x0B#8
  | .shutdown => 0x0C#8
  | .displayTest => 0x0F#8

/-- The register of a code byte; codes 0x0D, 0x0E and 0x10..0xFF are none (30_encoding.md R72). -/
def regOf (b : Byte) : Except Reject Register :=
  match b.toNat with
  | 0x00 => .ok .noOp
  | 0x01 => .ok (.digit 0)
  | 0x02 => .ok (.digit 1)
  | 0x03 => .ok (.digit 2)
  | 0x04 => .ok (.digit 3)
  | 0x05 => .ok (.digit 4)
  | 0x06 => .ok (.digit 5)
  | 0x07 => .ok (.digit 6)
  | 0x08 => .ok (.digit 7)
  | 0x09 => .ok .decodeMode
  | 0x0A => .ok .intensity
  | 0x0B => .ok .scanLimit
  | 0x0C => .ok .shutdown
  | 0x0F => .ok .displayTest
  | _ => .error (.badRegister b)

/-- `mode`: 0 = matrix, 1 = digit (30_encoding.md R81). -/
def modeCode : Mode → Byte
  | .matrix => 0#8
  | .digit => 1#8

/-- The mode of a code byte (30_encoding.md R81, R88 (c)). -/
def modeOf (b : Byte) : Except Reject Mode :=
  match b.toNat with
  | 0 => .ok .matrix
  | 1 => .ok .digit
  | _ => .error (.badMode b)

/-- `tmode`: 0 = loop, 1 = bounce, 2 = once (30_encoding.md R81). -/
def tmodeCode : TMode → Byte
  | .loop => 0#8
  | .bounce => 1#8
  | .once => 2#8

/-- The termination mode of a code byte (30_encoding.md R81, R88 (c)). -/
def tmodeOf (b : Byte) : Except Reject TMode :=
  match b.toNat with
  | 0 => .ok .loop
  | 1 => .ok .bounce
  | 2 => .ok .once
  | _ => .error (.badTMode b)

/-- `on` and `dp` as a byte (30_encoding.md R81). -/
def flagByte (b : Bool) : Byte := if b then 1#8 else 0#8

/-- The flag of a byte: 0 or 1 (30_encoding.md R81, R88 (c)). -/
def flagOf (b : Byte) : Except Reject Bool :=
  match b.toNat with
  | 0 => .ok false
  | 1 => .ok true
  | _ => .error (.badFlag b)

/-- A Unicode scalar value: 0..0xD7FF or 0xE000..0x10FFFF (30_encoding.md R81). -/
def isScalar (v : Nat) : Bool := decide (v ≤ 0xD7FF) || (decide (0xE000 ≤ v) && decide (v ≤ 0x10FFFF))

/-- Little-endian assembly of a `ch` field (30_encoding.md R83). -/
def assembleChar (c0 c1 c2 c3 : Byte) : BitVec 32 :=
  c0.setWidth 32 ||| (c1.setWidth 32 <<< 8) ||| (c2.setWidth 32 <<< 16) ||| (c3.setWidth 32 <<< 24)

/-- The character of a `ch` field (30_encoding.md R81, R83, R88 (c)). -/
def charOf (c0 c1 c2 c3 : Byte) : Except Reject Char :=
  let v := assembleChar c0 c1 c2 c3
  if isScalar v.toNat then .ok (Char.ofNat v.toNat) else .error (.badChar v)

/-- Byte `k` of a character's 32-bit value (30_encoding.md R83). -/
def charByte (ch : Char) (k : Nat) : Byte := ((BitVec.ofNat 32 ch.toNat) >>> (8 * k)).setWidth 8

/-- The four bytes of a `ch` field, in record order (30_encoding.md R83). -/
def charBytes (ch : Char) : List Byte := [charByte ch 0, charByte ch 1, charByte ch 2, charByte ch 3]

/-- The `count` characters of a `SCROLL_START`, four bytes each, with nothing after them (30_encoding.md R82, R84). -/
def charsOf : Nat → List Byte → Except Reject (List Char)
  | 0, [] => .ok []
  | count + 1, c0 :: c1 :: c2 :: c3 :: rest =>
    match charOf c0 c1 c2 c3, charsOf count rest with
    | .ok ch, .ok chars => .ok (ch :: chars)
    | .error r, _ => .error r
    | _, .error r => .error r
  | _, _ => .error .badLength

/-- `NEW n, mode` (30_encoding.md R82). -/
def decodeNew : List Byte → Except Reject Instr
  | [n, m] => (modeOf m).map fun mode => .new n mode
  | _ => .error .badLength

/-- A record that is its tag alone (30_encoding.md R84). -/
def decodePlain (i : Instr) : List Byte → Except Reject Instr
  | [] => .ok i
  | _ => .error .badLength

/-- `WRITE_ONE dev, reg, val` (30_encoding.md R82). -/
def decodeWriteOne : List Byte → Except Reject Instr
  | [dev, r, val] => (regOf r).map fun reg => .writeOne dev reg val
  | _ => .error .badLength

/-- `WRITE_BCAST reg, val` (30_encoding.md R82). -/
def decodeWriteBcast : List Byte → Except Reject Instr
  | [r, val] => (regOf r).map fun reg => .writeBcast reg val
  | _ => .error .badLength

/-- `WRITE_ALL reg, v_0 .. v_{N-1}`: the values are the rest of the record. No instance has 0 or over 255 devices; that there
are S.N of them is the meaning's check (30_encoding.md R84, R85, R88 (b), (f); log 8). -/
def decodeWriteAll : List Byte → Except Reject Instr
  | r :: vals => if valsWf vals then (regOf r).map fun reg => .writeAll reg vals else .error .badLength
  | [] => .error .badLength

/-- `SET_PIXEL dev, row, col, on` (30_encoding.md R82). -/
def decodeSetPixel : List Byte → Except Reject Instr
  | [dev, row, col, b] => (flagOf b).map fun on => .setPixel dev row col on
  | _ => .error .badLength

/-- `GET_PIXEL dev, row, col` (30_encoding.md R82). -/
def decodeGetPixel : List Byte → Except Reject Instr
  | [dev, row, col] => .ok (.getPixel dev row col)
  | _ => .error .badLength

/-- `SET_DIGIT dev, pos, ch, dp` (30_encoding.md R82). -/
def decodeSetDigit : List Byte → Except Reject Instr
  | [dev, pos, c0, c1, c2, c3, b] =>
    match charOf c0 c1 c2 c3, flagOf b with
    | .ok ch, .ok dp => .ok (.setDigit dev pos ch dp)
    | .error r, _ => .error r
    | _, .error r => .error r
  | _ => .error .badLength

/-- `WRITE_GLYPH dev, roff, len, b_0 .. b_{len-1}` (30_encoding.md R82, R84). -/
def decodeWriteGlyph : List Byte → Except Reject Instr
  | dev :: roff :: len :: bitmap =>
    if bitmap.length = len.toNat then .ok (.writeGlyph dev roff bitmap) else .error .badLength
  | _ => .error .badLength

/-- `GET_ROW dev, row` (30_encoding.md R82). -/
def decodeGetRow : List Byte → Except Reject Instr
  | [dev, row] => .ok (.getRow dev row)
  | _ => .error .badLength

/-- `GLYPH_FOR ch` (30_encoding.md R82). -/
def decodeGlyphFor : List Byte → Except Reject Instr
  | [c0, c1, c2, c3] => (charOf c0 c1 c2 c3).map fun ch => .glyphFor ch
  | _ => .error .badLength

/-- `GLYPH_FOR_STRICT ch` (30_encoding.md R82). -/
def decodeGlyphForStrict : List Byte → Except Reject Instr
  | [c0, c1, c2, c3] => (charOf c0 c1 c2 c3).map fun ch => .glyphForStrict ch
  | _ => .error .badLength

/-- `SCROLL_START tmode, count, ch_0 .. ch_{count-1}` (30_encoding.md R82, R84). -/
def decodeScrollStart : List Byte → Except Reject Instr
  | t :: count :: rest =>
    match tmodeOf t, charsOf count.toNat rest with
    | .ok tmode, .ok chars => .ok (.scrollStart tmode chars)
    | .error r, _ => .error r
    | _, .error r => .error r
  | _ => .error .badLength

/-- The decoder: one record, one command (30_encoding.md R80, R82, R84-R86, R88). -/
def decode : Record → Except Reject Instr
  | [] => .error .badLength
  | tag :: ops =>
    match tag.toNat with
    | 0x01 => decodeNew ops
    | 0x02 => decodePlain .deviceCount ops
    | 0x10 => decodeWriteOne ops
    | 0x11 => decodeWriteBcast ops
    | 0x12 => decodeWriteAll ops
    | 0x13 => decodePlain .init ops
    | 0x14 => decodePlain .pclear ops
    | 0x20 => decodeSetPixel ops
    | 0x21 => decodeGetPixel ops
    | 0x22 => decodeSetDigit ops
    | 0x23 => decodeWriteGlyph ops
    | 0x24 => decodeGetRow ops
    | 0x25 => decodePlain .flush ops
    | 0x26 => decodePlain .bclear ops
    | 0x30 => decodeGlyphFor ops
    | 0x31 => decodeGlyphForStrict ops
    | 0x40 => decodeScrollStart ops
    | 0x41 => decodePlain .scrollStep ops
    | 0x42 => decodePlain .scrollFinished ops
    | 0x43 => decodePlain .scrollStop ops
    | _ => .error (.reservedTag tag)

/-- The record of a command (30_encoding.md R80, R82, R83); `SET_INTENSITY v` is written as `WRITE_BCAST Intensity, v` (R87). -/
def encode : Instr → Record
  | .new n mode => [0x01#8, n, modeCode mode]
  | .deviceCount => [0x02#8]
  | .writeOne dev reg val => [0x10#8, dev, regCode reg, val]
  | .writeBcast reg val => [0x11#8, regCode reg, val]
  | .writeAll reg vals => 0x12#8 :: regCode reg :: vals
  | .init => [0x13#8]
  | .pclear => [0x14#8]
  | .setPixel dev row col on => [0x20#8, dev, row, col, flagByte on]
  | .getPixel dev row col => [0x21#8, dev, row, col]
  | .setDigit dev pos ch dp => [0x22#8, dev, pos] ++ charBytes ch ++ [flagByte dp]
  | .writeGlyph dev roff bitmap => 0x23#8 :: dev :: roff :: BitVec.ofNat 8 bitmap.length :: bitmap
  | .getRow dev row => [0x24#8, dev, row]
  | .flush => [0x25#8]
  | .bclear => [0x26#8]
  | .glyphFor ch => 0x30#8 :: charBytes ch
  | .glyphForStrict ch => 0x31#8 :: charBytes ch
  | .scrollStart tmode chars =>
    0x40#8 :: tmodeCode tmode :: BitVec.ofNat 8 chars.length :: chars.flatMap charBytes
  | .scrollStep => [0x41#8]
  | .scrollFinished => [0x42#8]
  | .scrollStop => [0x43#8]
  | .setIntensity v => [0x11#8, regCode .intensity, v]

/-- How many bytes the record of a command has (30_encoding.md R84). -/
def Instr.recordLength : Instr → Nat
  | .new _ _ => 3
  | .deviceCount => 1
  | .writeOne _ _ _ => 4
  | .writeBcast _ _ => 3
  | .writeAll _ vals => 2 + vals.length
  | .init => 1
  | .pclear => 1
  | .setPixel _ _ _ _ => 5
  | .getPixel _ _ _ => 4
  | .setDigit _ _ _ _ => 8
  | .writeGlyph _ _ bitmap => 4 + bitmap.length
  | .getRow _ _ => 3
  | .flush => 1
  | .bclear => 1
  | .glyphFor _ => 5
  | .glyphForStrict _ => 5
  | .scrollStart _ chars => 3 + 4 * chars.length
  | .scrollStep => 1
  | .scrollFinished => 1
  | .scrollStop => 1
  | .setIntensity _ => 3

/-- Byte `k` of a number whose bit 0 is bit 0 of the first byte. -/
def wordByte (w k : Nat) : Byte := BitVec.ofNat 8 (w / 2 ^ (8 * k))

/-- How long the record is that begins with the bytes of `w`, on a chain of `n` devices (30_encoding.md R84). -/
def recordLengthOf (n w : Nat) : Nat :=
  match (wordByte w 0).toNat with
  | 0x01 => 3
  | 0x10 => 4
  | 0x11 => 3
  | 0x12 => 2 + n
  | 0x20 => 5
  | 0x21 => 4
  | 0x22 => 8
  | 0x23 => 4 + (wordByte w 3).toNat
  | 0x24 => 3
  | 0x30 => 5
  | 0x31 => 5
  | 0x40 => 3 + 4 * (wordByte w 2).toNat
  | _ => 1

/-- The record whose bits are `w`, its first byte lowest, every bit from `nbits` up zero, on a chain of `n` devices (log 19). -/
def tableRecord (n nbits w : Nat) : Record :=
  let v := w % 2 ^ nbits
  (List.range (max (nbits / 8) (recordLengthOf n v))).map (wordByte v)

/-- The command the decoder reads from the table's bits; a `WRITE_ALL` is taken for the shortest chain, one device (log 19). -/
def decodeTableWord (nbits w : Nat) : Option Instr :=
  match decode (tableRecord 1 nbits w) with
  | .ok i => some i
  | .error _ => none

end Sys2Proof
end

