-- ==== Sys2Proof/Machine/State.lean ====
section
/-! DEFINITION. The state of the block as plain data (10_state.md), the observation it leaves (20_memory.md R62, 60_exceptions.md
R221), the reasons a step stops, and the state before any command (70_reset_and_hazards.md R250). -/

namespace Sys2Proof.Machine

/-- The protocol phase (10_state.md R24). -/
inductive Phase where
  | uninitialized
  | active
deriving DecidableEq, Repr

/-- The direction of a bounce scroll: +1 or -1 (10_state.md R29). -/
inductive Dir where
  | plus
  | minus
deriving DecidableEq, Repr

/-- A scroll in progress (10_state.md R29). The strip is not stored: it is a function of `chars` and the font. -/
structure ScrollState where
  chars    : List Char
  tmode    : TMode
  width    : Nat
  offset   : Nat
  dir      : Dir
  finished : Bool
deriving DecidableEq, Repr

/-- The bytes of the display buffer that are not 0x00, by address, addresses rising; an unlisted address reads as 0x00
(10_state.md R26, 70_reset_and_hazards.md R250; log 11). -/
abbrev Memory := List Host.Cell

/-- A constructed block (10_state.md R22-R31): `n` is S.N, `buf` is S.buf. -/
structure Inst where
  n      : Nat
  mode   : Mode
  phase  : Phase
  buf    : Memory
  scroll : Option ScrollState
deriving DecidableEq, Repr

/-- A host interaction, as the transcript records it (20_memory.md R62). -/
inductive Event where
  | acquire
  | transfer (f : Frame) (res : HostResult)
  | release
deriving DecidableEq, Repr

/-- The error kinds (60_exceptions.md R221). -/
inductive ErrorKind where
  | zeroLengthChain
  | indexOutOfRange
  | intensityOutOfRange
  | notInitialized
  | unsupportedCharacter
  | transportFailure (e : HostError)
deriving DecidableEq, Repr

/-- The one response a command ends with (60_exceptions.md R220, R221). -/
inductive Response where
  | ok (result : List Byte)
  | error (k : ErrorKind)
deriving DecidableEq, Repr

/-- The state. `inst = none` is `Unconstructed` (10_state.md R22). `cfg` is the instance's read-only configuration (R33; log 4).
`transcript` and `responses` are the observation, oldest first (20_memory.md R62; log 3). `inbox` holds the records the caller has
still to give, next first (00_scope.md R4; log 1). `hostResults` holds the results the host will give, next first; with none
listed, transfer number `transfers` has the free result (60_exceptions.md R237; log 2). -/
structure State where
  cfg         : Config
  inst        : Option Inst
  transcript  : List Event
  responses   : List Response
  inbox       : List Record
  hostResults : List HostResult
  transfers   : Nat
deriving DecidableEq, Repr

/-- Why the machine stops with a fault. -/
inductive Fault where
  /-- Raised by the buffer accesses of Ops.lean at an address outside 0..8·N−1, which does not exist (20_memory.md R51). Safe: no
  command forms one (R51; log 11). -/
  | noSuchByte (a : Nat)
deriving DecidableEq, Repr

/-- Why a command is refused: it has no meaning, and the run stops (00_scope.md R12, 60_exceptions.md R230; log 7). All are safe:
the spec itself refuses. -/
inductive Refusal where
  /-- Raised by an arm of `exec` without a meaning; there is none. -/
  | notModelled (mnemonic : String)
  /-- Raised by `step`: the record spells no command (30_encoding.md R88 (a)-(c)). -/
  | badRecord (r : Reject)
  /-- Raised by every command but `NEW` in `Unconstructed` (30_encoding.md R88 (d)). -/
  | unconstructed
  /-- Raised by `NEW` in `Constructed` (30_encoding.md R88 (d)). -/
  | alreadyConstructed
  /-- Raised by `NEW` with n above MAX_DEVICES (30_encoding.md R88 (c)). -/
  | tooManyDevices (n : Byte)
  /-- Raised by a command whose modes exclude S.mode (30_encoding.md R88 (e)). -/
  | wrongMode (mode : Mode)
  /-- Raised by `WRITE_ALL` whose list is not S.N values long (30_encoding.md R88 (f)). -/
  | valueCount (len : Nat)
  /-- Raised by `SCROLL_START` with more characters than min(255, MAX_SCROLL_CHARS) (30_encoding.md R81, R88 (c)). -/
  | tooManyChars (len : Nat)
  /-- Raised by `SCROLL_STEP` and `SCROLL_FINISHED` with no scroll (30_encoding.md R88 (g)). -/
  | noScroll
deriving DecidableEq, Repr

/-- What a step of the block ends in. -/
abbrev Outcome := Host.Outcome State Fault Refusal

/-- The instance `NEW n, mode` constructs (42_chain_topology.md R130, 10_state.md R31). -/
def Inst.fresh (n : Nat) (mode : Mode) : Inst :=
  { n := n, mode := mode, phase := .uninitialized, buf := [], scroll := none }

/-- Before any command: `Unconstructed`, empty transcript (70_reset_and_hazards.md R250). The configuration is uninterpreted
(log 4); the model's own fields are empty (logs 1-3). -/
def State.reset : State :=
  { cfg := Config.actual, inst := none, transcript := [], responses := [], inbox := [], hostResults := [], transfers := 0 }

end Sys2Proof.Machine
end

