-- ==== Sys2Proof/Machine/Operands.lean ====
section
/-! DEFINITION. What the commands' operands stand for: rows in use, buffer addresses, bit places, register/value pairs and frames,
and the font lookups. -/

namespace Sys2Proof.Machine

/-- GLYPH_W, the columns of a glyph (00_scope.md R6). -/
def glyphW : Nat := 8

/-- ROWS: 8 in matrix mode, DIGIT_COUNT in digit mode (10_state.md R27). -/
def rows (c : Config) : Mode → Nat
  | .matrix => 8
  | .digit => c.digitCount

/-- The linear address of row or position `r` of device `d` (20_memory.md R51). -/
def bufAddr (d r : Nat) : Nat := 8 * d + r

/-- The byte with only the bit of pixel column `col` set: bit 7 − col (20_memory.md R52). -/
def pixelMask (col : Nat) : Byte := 1#8 <<< (7 - col)

/-- A row byte with the pixel of column `col` set to `on` (43_display_buffer.md R140). -/
def withPixel (b : Byte) (col : Nat) (on : Bool) : Byte :=
  if on then b ||| pixelMask col else b &&& ~~~ pixelMask col

/-- The pixel of column `col` of a row byte, as 0 or 1 (43_display_buffer.md R142). -/
def pixelOf (b : Byte) (col : Nat) : Byte := (b >>> (7 - col)) &&& 1#8

/-- A digit byte: the segments of the font code, and the decimal point in bit 7 (20_memory.md R53, 43_display_buffer.md R145). -/
def digitByte (seg : Byte) (dp : Bool) : Byte := (seg &&& 0x7F#8) ||| (flagByte dp <<< 7)

/-- A frame from one (register, value) pair per device, slot 0 first (30_encoding.md R75, 42_chain_topology.md R131). -/
def mkFrame (pairs : List (Register × Byte)) : Frame := pairs.flatMap fun p => [regCode p.1, p.2]

/-- The same pair for every device (41_register_protocol.md, `[(reg, v)] * S.N`). -/
def bcastFrame (n : Nat) (reg : Register) (val : Byte) : Frame := mkFrame (List.replicate n (reg, val))

/-- The pair at `dev`'s slot, the filler `(NoOp, 0x00)` at every other (30_encoding.md R74, 41_register_protocol.md R100). -/
def oneFrame (n dev : Nat) (reg : Register) (val : Byte) : Frame :=
  mkFrame ((List.replicate n (Register.noOp, 0x00#8)).set dev (reg, val))

/-- One register for every device, each with its own value (41_register_protocol.md R102). -/
def allFrame (reg : Register) (vals : List Byte) : Frame := mkFrame (vals.map fun v => (reg, v))

/-- DECODE_VALUE: no decode, in both modes (00_scope.md R6, 30_encoding.md R73). -/
def decodeValue : Mode → Byte
  | .matrix => 0x00#8
  | .digit => 0x00#8

/-- The register writes of `INIT`, in order (41_register_protocol.md R110; values 30_encoding.md R73). -/
def initSeq (c : Config) (mode : Mode) : List (Register × Byte) :=
  [(.displayTest, 0x00#8),
   (.decodeMode, decodeValue mode),
   (.scanLimit, BitVec.ofNat 8 (rows c mode - 1)),
   (.intensity, c.intensityByte),
   (.shutdown, 0x01#8)]

/-- The five frames of `INIT` (41_register_protocol.md R110). -/
def initFrames (c : Config) (mode : Mode) (n : Nat) : List Frame :=
  (initSeq c mode).map fun p => bcastFrame n p.1 p.2

/-- The register `Digit(r)` (00_scope.md R13). -/
def digitReg (r : Nat) : Register := .digit (Fin.ofNat 8 r)

/-- The eight frames of `PCLEAR` (41_register_protocol.md R115). -/
def clearFrames (n : Nat) : List Frame := (List.range 8).map fun r => bcastFrame n (digitReg r) 0x00#8

/-- The blank glyph of matrix mode (44_font_table.md R173). -/
def blankGlyph : Glyph := Vector.replicate 8 0x00#8

/-- `ch in SUPPORTED`, for the font of the mode (44_font_table.md R173; log 5). -/
def supported (c : Config) (mode : Mode) (ch : Char) : Bool :=
  match mode with
  | .matrix => (c.fontM.lookup ch).isSome
  | .digit => (c.fontD.lookup ch).isSome

/-- The lenient lookup in matrix mode: the blank glyph where the font defines none (44_font_table.md R171). -/
def glyphM (c : Config) (ch : Char) : Glyph := (c.fontM.lookup ch).getD blankGlyph

/-- The lenient lookup in digit mode: 0x00 where the font defines none (44_font_table.md R171). -/
def glyphD (c : Config) (ch : Char) : Byte := (c.fontD.lookup ch).getD 0x00#8

/-- The glyph of a character as result bytes: eight, row 0 first, or one (44_font_table.md R170, 30_encoding.md R83). -/
def glyphBytes (c : Config) (mode : Mode) (ch : Char) : List Byte :=
  match mode with
  | .matrix => (glyphM c ch).toList
  | .digit => [glyphD c ch]

end Sys2Proof.Machine
end

