-- ==== Sys2Proof/Machine/Flags.lean ====
section
/-! DEFINITION. The block has no condition codes (10_state.md R30). Its status: the status byte and bytes of a response
(60_exceptions.md R221, 30_encoding.md R80) and the check on caller-given intensities (41_register_protocol.md R103). -/

namespace Sys2Proof.Machine

/-- The status code of an error kind (60_exceptions.md R221). -/
def ErrorKind.code : ErrorKind → Byte
  | .zeroLengthChain => 0x01#8
  | .indexOutOfRange => 0x02#8
  | .intensityOutOfRange => 0x03#8
  | .notInitialized => 0x04#8
  | .unsupportedCharacter => 0x05#8
  | .transportFailure _ => 0x06#8

/-- The status byte of a response (60_exceptions.md R221). -/
def Response.status : Response → Byte
  | .ok _ => 0x00#8
  | .error k => k.code

/-- The result bytes of a response; an error has none (60_exceptions.md R221). The payload of a transport failure is opaque and
has no byte form in the spec (log 6). -/
def Response.result : Response → List Byte
  | .ok bytes => bytes
  | .error _ => []

/-- The response as the caller receives it: the status byte, then the result bytes (30_encoding.md R80). -/
def Response.bytes (r : Response) : List Byte := r.status :: r.result

/-- `checkIntensity` fails: a value above 15 for the Intensity register (41_register_protocol.md R103). -/
def badIntensity (reg : Register) (val : Byte) : Bool := decide (reg = .intensity) && decide (15 < val.toNat)

end Sys2Proof.Machine
end

