-- ==== Sys2Proof/Machine/Ops.lean ====
section
/-! DEFINITION. The shared operations: the buffer memory (20_memory.md R51, 00_scope.md R9), taking a command, admission
(30_encoding.md R88), responding and raising an error (00_scope.md R10, 60_exceptions.md R220), and `Emit` (00_scope.md R11). -/

namespace Sys2Proof.Machine

/-- The byte at an address; an unlisted address reads as 0x00 (log 11). -/
def Memory.read : Memory → Nat → Byte
  | [], _ => 0x00#8
  | (b, w) :: rest, a => if a = b then w else Memory.read rest a

/-- The memory with byte `v` at address `a`, in the same canonical form: writing 0x00 removes the entry (log 11). -/
def Memory.write : Memory → Nat → Byte → Memory
  | [], a, v => if v = 0x00#8 then [] else [(a, v)]
  | (b, w) :: rest, a, v =>
    if a < b then (if v = 0x00#8 then (b, w) :: rest else (a, v) :: (b, w) :: rest)
    else if a = b then (if v = 0x00#8 then rest else (a, v) :: rest)
    else (b, w) :: Memory.write rest a v

/-- Every address of the memory is at least `lo`, addresses rise strictly, and no entry is 0x00. -/
def Memory.wfFrom : Nat → Memory → Bool
  | _, [] => true
  | lo, (a, v) :: rest => decide (lo ≤ a) && decide (v ≠ 0x00#8) && Memory.wfFrom (a + 1) rest

/-- The canonical form: equal memories are equal lists (log 11). -/
def Memory.wf (m : Memory) : Bool := Memory.wfFrom 0 m

/-- `buf[d][r]` (00_scope.md R9). -/
def Inst.byteAt (inst : Inst) (d r : Nat) : Byte := Memory.read inst.buf (bufAddr d r)

/-- `MemRead(a, 1)`: an address outside the buffer does not exist (00_scope.md R9, 20_memory.md R51). -/
def memRead (inst : Inst) (a : Nat) : Except Fault Byte :=
  if a < 8 * inst.n then .ok (Memory.read inst.buf a) else .error (.noSuchByte a)

/-- `MemWrite(a, 1, v)`: an address outside the buffer does not exist (00_scope.md R9, 20_memory.md R51). -/
def memWrite (inst : Inst) (a : Nat) (v : Byte) : Except Fault Inst :=
  if a < 8 * inst.n then .ok { inst with buf := Memory.write inst.buf a v } else .error (.noSuchByte a)

/-- A block of bytes written from address `a` up (43_display_buffer.md R147). -/
def memWriteBlock (inst : Inst) (a : Nat) : List Byte → Except Fault Inst
  | [] => .ok inst
  | v :: vs =>
    match memWrite inst a v with
    | .ok inst' => memWriteBlock inst' (a + 1) vs
    | .error f => .error f

/-- Go on with what an access gave, or stop with its fault. -/
def access {α : Type} (x : Except Fault α) (k : α → Outcome) : Outcome :=
  match x with
  | .ok v => k v
  | .error f => .fault f

/-- The state with another instance record. -/
def State.setInst (s : State) (inst : Inst) : State := { s with inst := some inst }

/-- The state in another phase, where there is an instance (10_state.md R24). -/
def State.setPhase (s : State) (p : Phase) : State :=
  { s with inst := s.inst.map fun inst => { inst with phase := p } }

/-- Every buffer byte becomes 0x00 (43_display_buffer.md R155, 41_register_protocol.md R115). -/
def Inst.clearBuf (inst : Inst) : Inst := { inst with buf := [] }

/-- Take the caller's next record (00_scope.md R4, R5); none when the caller has given no more (log 1). -/
def takeRecord (s : State) : Option (Record × State) :=
  match s.inbox with
  | [] => none
  | rec :: rest => some (rec, { s with inbox := rest })

/-- The state after a command answered `r` (60_exceptions.md R220). -/
def State.answer (s : State) (r : Response) : State := { s with responses := s.responses ++ [r] }

/-- `return Ok(result)` (60_exceptions.md R221). -/
def respond (result : List Byte) (s : State) : Outcome := .next (s.answer (.ok result))

/-- `raise E`: the command ends with the error response and nothing else changes (00_scope.md R10, 60_exceptions.md R220, R232).
This is the block's whole "exception entry": no handler, saved register or mode; and there is no return from one (R233). -/
def raise (k : ErrorKind) (s : State) : Outcome := .next (s.answer (.error k))

/-- Go on with the instance; refused in `Unconstructed` (30_encoding.md R88 (d)). -/
def withInst (s : State) (k : Inst → Outcome) : Outcome :=
  match s.inst with
  | none => .refused .unconstructed
  | some inst => k inst

/-- Go on with the instance if its mode admits the command (30_encoding.md R88 (d), (e)). -/
def inMode (m : Mode) (s : State) (k : Inst → Outcome) : Outcome :=
  withInst s fun inst => if inst.mode = m then k inst else .refused (.wrongMode inst.mode)

/-- Go on with the scroll; refused without one (30_encoding.md R88 (g)). -/
def withScroll (inst : Inst) (k : ScrollState → Outcome) : Outcome :=
  match inst.scroll with
  | none => .refused .noScroll
  | some st => k st

/-- `requireActive()` (41_register_protocol.md R104). -/
def requireActive (inst : Inst) (s : State) (k : Outcome) : Outcome :=
  match inst.phase with
  | .uninitialized => raise .notInitialized s
  | .active => k

/-- What the host will answer the next `Transfer` with (60_exceptions.md R237; log 2). -/
def State.nextResult (s : State) : HostResult := s.hostResults.headD (Config.freeTransferResult s.transfers)

/-- The events of one transport transaction (00_scope.md R11, 20_memory.md R60). -/
def transaction (f : Frame) (res : HostResult) : List Event := [.acquire, .transfer f res, .release]

/-- The state after one transport transaction, whatever its result (00_scope.md R11 (1)-(3)). -/
def State.transact (s : State) (f : Frame) : State :=
  { s with transcript := s.transcript ++ transaction f s.nextResult,
           hostResults := s.hostResults.tail,
           transfers := s.transfers + 1 }

/-- `Emit` of a list of frames, in order, up to the first failing transfer (00_scope.md R11, 20_memory.md R61): the state it leaves,
and the host's error if one failed. A failure makes the phase `Uninitialized`, and no later frame is sent. -/
def emitAll : List Frame → State → State × Option HostError
  | [], s => (s, none)
  | f :: fs, s =>
    match s.nextResult with
    | .ok => emitAll fs (s.transact f)
    | .err e => ((s.transact f).setPhase .uninitialized, some e)

/-- Emit the frames, then go on; a failing transfer ends the command with `TransportFailure(e)` (00_scope.md R11,
60_exceptions.md R229). -/
def emitThen (frames : List Frame) (s : State) (k : State → Outcome) : Outcome :=
  match emitAll frames s with
  | (s', none) => k s'
  | (s', some e) => raise (.transportFailure e) s'

end Sys2Proof.Machine
end

