-- ==== Sys2Proof/Machine/ChainTopology.lean ====
section
/-! DEFINITION. The commands of the chain topology: `NEW`, `DEVICE_COUNT` (42_chain_topology.md). -/

namespace Sys2Proof.Machine

/-- `NEW n, mode` (42_chain_topology.md R130; refused in `Constructed` and above MAX_DEVICES, 30_encoding.md R88 (c), (d)). -/
def execNew (n : Byte) (mode : Mode) (s : State) : Outcome :=
  match s.inst with
  | some _ => .refused .alreadyConstructed
  | none =>
    if s.cfg.maxDevices < n.toNat then .refused (.tooManyDevices n)
    else if n.toNat = 0 then raise .zeroLengthChain s
    else respond [] (s.setInst (Inst.fresh n.toNat mode))

/-- `DEVICE_COUNT` (42_chain_topology.md R132). -/
def execDeviceCount (s : State) : Outcome :=
  withInst s fun inst => respond [BitVec.ofNat 8 inst.n] s

end Sys2Proof.Machine
end

