-- ==== Sys2Proof/Machine/DisplayBuffer.lean ====
section
/-! DEFINITION. The commands of the display buffer: `SET_PIXEL`, `GET_PIXEL`, `SET_DIGIT`, `WRITE_GLYPH`, `GET_ROW`, `FLUSH`,
`BCLEAR` (43_display_buffer.md). -/

namespace Sys2Proof.Machine

/-- `SET_PIXEL dev, row, col, on` (43_display_buffer.md R140). -/
def execSetPixel (dev row col : Byte) (on : Bool) (s : State) : Outcome :=
  inMode .matrix s fun inst =>
    if inst.n ≤ dev.toNat ∨ 8 ≤ row.toNat ∨ 8 ≤ col.toNat then raise .indexOutOfRange s
    else
      let a := bufAddr dev.toNat row.toNat
      access (memRead inst a) fun b =>
        access (memWrite inst a (withPixel b col.toNat on)) fun inst' => respond [] (s.setInst inst')

/-- `GET_PIXEL dev, row, col` (43_display_buffer.md R142). -/
def execGetPixel (dev row col : Byte) (s : State) : Outcome :=
  inMode .matrix s fun inst =>
    if inst.n ≤ dev.toNat ∨ 8 ≤ row.toNat ∨ 8 ≤ col.toNat then raise .indexOutOfRange s
    else access (memRead inst (bufAddr dev.toNat row.toNat)) fun b => respond [pixelOf b col.toNat] s

/-- `SET_DIGIT dev, pos, ch, dp` (43_display_buffer.md R145). -/
def execSetDigit (dev pos : Byte) (ch : Char) (dp : Bool) (s : State) : Outcome :=
  inMode .digit s fun inst =>
    if inst.n ≤ dev.toNat ∨ rows s.cfg inst.mode ≤ pos.toNat then raise .indexOutOfRange s
    else
      access (memWrite inst (bufAddr dev.toNat pos.toNat) (digitByte (glyphD s.cfg ch) dp)) fun inst' =>
        respond [] (s.setInst inst')

/-- `WRITE_GLYPH dev, roff, bitmap` (43_display_buffer.md R147). -/
def execWriteGlyph (dev roff : Byte) (bitmap : List Byte) (s : State) : Outcome :=
  withInst s fun inst =>
    if inst.n ≤ dev.toNat ∨ rows s.cfg inst.mode < roff.toNat + bitmap.length then raise .indexOutOfRange s
    else
      access (memWriteBlock inst (bufAddr dev.toNat roff.toNat) bitmap) fun inst' => respond [] (s.setInst inst')

/-- `GET_ROW dev, row` (43_display_buffer.md R149). -/
def execGetRow (dev row : Byte) (s : State) : Outcome :=
  withInst s fun inst =>
    if inst.n ≤ dev.toNat ∨ rows s.cfg inst.mode ≤ row.toNat then raise .indexOutOfRange s
    else access (memRead inst (bufAddr dev.toNat row.toNat)) fun b => respond [b] s

/-- The bytes of row `r` of devices `d`, `d + 1`, .., `d + k - 1`. -/
def readRow (inst : Inst) (r : Nat) : Nat → Nat → Except Fault (List Byte)
  | _, 0 => .ok []
  | d, k + 1 =>
    match memRead inst (bufAddr d r), readRow inst r (d + 1) k with
    | .ok b, .ok bs => .ok (b :: bs)
    | .error f, _ => .error f
    | _, .error f => .error f

/-- The frames of rows `r`, `r + 1`, .., `r + k - 1` of the buffer, each a `WRITE_ALL(Digit(r), ..)` frame
(43_display_buffer.md R150). -/
def readFrames (inst : Inst) : Nat → Nat → Except Fault (List Frame)
  | _, 0 => .ok []
  | r, k + 1 =>
    match readRow inst r 0 inst.n, readFrames inst (r + 1) k with
    | .ok vals, .ok fs => .ok (allFrame (digitReg r) vals :: fs)
    | .error f, _ => .error f
    | _, .error f => .error f

/-- `FLUSH` (43_display_buffer.md R150). -/
def execFlush (s : State) : Outcome :=
  withInst s fun inst =>
    requireActive inst s
      (access (readFrames inst 0 (rows s.cfg inst.mode)) fun frames => emitThen frames s (respond []))

/-- `BCLEAR` (43_display_buffer.md R155). -/
def execBclear (s : State) : Outcome :=
  withInst s fun inst => respond [] (s.setInst inst.clearBuf)

end Sys2Proof.Machine
end

