-- ==== Sys2Proof/Machine/FontTable.lean ====
section
/-! DEFINITION. The commands of the font table: `GLYPH_FOR`, `GLYPH_FOR_STRICT` (44_font_table.md). -/

namespace Sys2Proof.Machine

/-- `GLYPH_FOR ch` (44_font_table.md R170). -/
def execGlyphFor (ch : Char) (s : State) : Outcome :=
  withInst s fun inst => respond (glyphBytes s.cfg inst.mode ch) s

/-- `GLYPH_FOR_STRICT ch` (44_font_table.md R172). -/
def execGlyphForStrict (ch : Char) (s : State) : Outcome :=
  withInst s fun inst =>
    if supported s.cfg inst.mode ch then respond (glyphBytes s.cfg inst.mode ch) s
    else raise .unsupportedCharacter s

end Sys2Proof.Machine
end

