-- ==== Sys2Proof/Machine/RegisterProtocol.lean ====
section
/-! DEFINITION. The commands of the register protocol: `WRITE_ONE`, `WRITE_BCAST`, `WRITE_ALL`, `INIT`, `PCLEAR` and the
pseudo-instruction `SET_INTENSITY` (41_register_protocol.md, 30_encoding.md R87). Errors are checked in the order of
60_exceptions.md R231. -/

namespace Sys2Proof.Machine

/-- `WRITE_ONE dev, reg, val` (41_register_protocol.md R100). -/
def execWriteOne (dev : Byte) (reg : Register) (val : Byte) (s : State) : Outcome :=
  withInst s fun inst =>
    if inst.n ≤ dev.toNat then raise .indexOutOfRange s
    else if badIntensity reg val then raise .intensityOutOfRange s
    else requireActive inst s (emitThen [oneFrame inst.n dev.toNat reg val] s (respond []))

/-- Write one register of every device with the same value (41_register_protocol.md R101). -/
def broadcast (reg : Register) (val : Byte) (s : State) : Outcome :=
  withInst s fun inst =>
    if badIntensity reg val then raise .intensityOutOfRange s
    else requireActive inst s (emitThen [bcastFrame inst.n reg val] s (respond []))

/-- `WRITE_BCAST reg, val` (41_register_protocol.md R101). -/
def execWriteBcast (reg : Register) (val : Byte) (s : State) : Outcome := broadcast reg val s

/-- `SET_INTENSITY v` is `WRITE_BCAST Intensity, v` (30_encoding.md R87; log 9). -/
def execSetIntensity (v : Byte) (s : State) : Outcome := broadcast .intensity v s

/-- `WRITE_ALL reg, vals` (41_register_protocol.md R102; a list of another length than S.N is refused, 30_encoding.md R88 (f)). -/
def execWriteAll (reg : Register) (vals : List Byte) (s : State) : Outcome :=
  withInst s fun inst =>
    if vals.length ≠ inst.n then .refused (.valueCount vals.length)
    else if vals.any (badIntensity reg) then raise .intensityOutOfRange s
    else requireActive inst s (emitThen [allFrame reg vals] s (respond []))

/-- `INIT` (41_register_protocol.md R110). -/
def execInit (s : State) : Outcome :=
  withInst s fun inst =>
    emitThen (initFrames s.cfg inst.mode inst.n) s fun s' => respond [] (s'.setPhase .active)

/-- `PCLEAR` (41_register_protocol.md R115): the buffer is zeroed before the first frame. -/
def execPclear (s : State) : Outcome :=
  withInst s fun inst => emitThen (clearFrames inst.n) (s.setInst inst.clearBuf) (respond [])

end Sys2Proof.Machine
end

