-- ==== Sys2Proof/Machine/ScrollEngine.lean ====
section
/-! DEFINITION. The scroll engine: the strip and window functions and the commands `SCROLL_START`, `SCROLL_STEP`,
`SCROLL_FINISHED`, `SCROLL_STOP` (45_scroll_engine.md). All four are admitted in matrix mode only. -/

namespace Sys2Proof.Machine

/-- `OR for i in 0..7 of f i` (45_scroll_engine.md R191, R196). -/
def orOver (f : Nat → Byte) : Byte := (List.range 8).foldl (fun acc i => acc ||| f i) 0x00#8

/-- `(b >> k) & 1` (45_scroll_engine.md R191, R196). -/
def bitAt (b : Byte) (k : Nat) : Byte := (b >>> k) &&& 1#8

/-- `col(g, c)`: column `c` of a glyph, bit r for row r (45_scroll_engine.md R191). -/
def glyphCol (g : Glyph) (c : Nat) : Byte := orOver fun r => bitAt (g.toList.getD r 0x00#8) (7 - c) <<< r

/-- `stripWidth(chars)` (45_scroll_engine.md R192). -/
def stripWidth (c : Config) (chars : List Char) : Nat :=
  if chars.length = 0 then 0 else chars.length * glyphW + (chars.length - 1) * c.gap

/-- `stripCol(chars, j)`: a glyph column or a gap column (45_scroll_engine.md R193). It is used at `j < stripWidth chars` only
(R208), where there is a character `j / P` (log 14). -/
def stripCol (c : Config) (chars : List Char) (j : Nat) : Byte :=
  let p := glyphW + c.gap
  if j % p < glyphW then
    match chars[j / p]? with
    | some ch => glyphCol (glyphM c ch) (j % p)
    | none => 0x00#8
  else 0x00#8

/-- The strip column that window column `j` shows at offset `o`; none is a blank column (45_scroll_engine.md R195). -/
def winIndex (st : ScrollState) (o j : Nat) : Option Nat :=
  match st.tmode with
  | .loop => if st.width = 0 then none else some ((o + j) % st.width)
  | .bounce => if o + j < st.width then some (o + j) else none
  | .once => if o + j < st.width then some (o + j) else none

/-- `winCol(o, j)` (45_scroll_engine.md R195). -/
def winCol (c : Config) (st : ScrollState) (o j : Nat) : Byte :=
  match winIndex st o j with
  | some i => stripCol c st.chars i
  | none => 0x00#8

/-- `winRow(o, d, r)`: the byte of row `r` of device `d` (45_scroll_engine.md R196). -/
def winRow (c : Config) (st : ScrollState) (o d r : Nat) : Byte :=
  orOver fun col => bitAt (winCol c st o (8 * d + col)) r <<< (7 - col)

/-- `V`, the window's columns on a chain of `n` devices (45_scroll_engine.md R194). -/
def windowWidth (n : Nat) : Nat := n * glyphW

/-- `M`, the largest offset of a bounce scroll (45_scroll_engine.md R197). -/
def bounceLimit (n : Nat) (st : ScrollState) : Nat :=
  if windowWidth n < st.width then st.width - windowWidth n else 0

/-- `advance(st)`: the scroll with its new offset, direction and finished flag (45_scroll_engine.md R197). -/
def advance (n : Nat) (st : ScrollState) : ScrollState :=
  match st.tmode with
  | .loop =>
    if st.width = 0 then { st with offset := 0, finished := false }
    else { st with offset := (st.offset + 1) % st.width, finished := false }
  | .bounce =>
    if bounceLimit n st = 0 then { st with offset := 0, finished := false }
    else
      match st.dir with
      | .plus =>
        if st.offset < bounceLimit n st then { st with offset := st.offset + 1, dir := .plus, finished := false }
        else { st with offset := st.offset - 1, dir := .minus, finished := false }
      | .minus =>
        if 0 < st.offset then { st with offset := st.offset - 1, dir := .minus, finished := false }
        else { st with offset := st.offset + 1, dir := .plus, finished := false }
  | .once =>
    { st with offset := min (st.offset + 1) st.width, finished := decide (min (st.offset + 1) st.width = st.width) }

/-- The scroll that `SCROLL_START` creates (45_scroll_engine.md R200, 10_state.md R29). -/
def freshScroll (c : Config) (tmode : TMode) (chars : List Char) : ScrollState :=
  { chars := chars, tmode := tmode, width := stripWidth c chars, offset := 0, dir := .plus,
    finished := decide (tmode = .once) && decide (stripWidth c chars = 0) }

/-- `SCROLL_START tmode, chars` (45_scroll_engine.md R200; a list over min(255, MAX_SCROLL_CHARS) is refused, 30_encoding.md R81,
R88 (c)). -/
def execScrollStart (tmode : TMode) (chars : List Char) (s : State) : Outcome :=
  inMode .matrix s fun inst =>
    if min 255 s.cfg.maxScrollChars < chars.length then .refused (.tooManyChars chars.length)
    else respond [] (s.setInst { inst with scroll := some (freshScroll s.cfg tmode chars) })

/-- The rows of device `d` in the window at the scroll's offset (45_scroll_engine.md R196). -/
def windowRows (c : Config) (st : ScrollState) (d : Nat) : List Byte :=
  (List.range 8).map (winRow c st st.offset d)

/-- Write the window into the rows of devices `d`, `d + 1`, .., `d + k - 1` (45_scroll_engine.md R201). -/
def writeWindow (c : Config) (st : ScrollState) : Nat → Nat → Inst → Except Fault Inst
  | _, 0, inst => .ok inst
  | d, k + 1, inst =>
    match memWriteBlock inst (bufAddr d 0) (windowRows c st d) with
    | .ok inst' => writeWindow c st (d + 1) k inst'
    | .error f => .error f

/-- `SCROLL_STEP` (45_scroll_engine.md R201): advance, then write the window at the new offset; nothing after a finished once
scroll. -/
def execScrollStep (s : State) : Outcome :=
  inMode .matrix s fun inst =>
    withScroll inst fun st =>
      if st.tmode = .once ∧ st.finished = true then respond [] s
      else
        access (writeWindow s.cfg (advance inst.n st) 0 inst.n { inst with scroll := some (advance inst.n st) }) fun inst' =>
          respond [] (s.setInst inst')

/-- `SCROLL_FINISHED` (45_scroll_engine.md R206). -/
def execScrollFinished (s : State) : Outcome :=
  inMode .matrix s fun inst => withScroll inst fun st => respond [flagByte st.finished] s

/-- `SCROLL_STOP` (45_scroll_engine.md R207). -/
def execScrollStop (s : State) : Outcome :=
  inMode .matrix s fun inst => respond [] (s.setInst { inst with scroll := none })

end Sys2Proof.Machine
end

