-- ==== Sys2Proof/Machine/Dispatch.lean ====
section
/-! DEFINITION. The meaning of each command, one arm per constructor of `Instr` (30_encoding.md R82). -/

namespace Sys2Proof.Machine

def exec (i : Instr) (s : State) : Host.Outcome State Fault Refusal :=
  match i with
  | .new n mode => Sys2Proof.Machine.execNew n mode s
  | .deviceCount => Sys2Proof.Machine.execDeviceCount s
  | .writeOne dev reg val => Sys2Proof.Machine.execWriteOne dev reg val s
  | .writeBcast reg val => Sys2Proof.Machine.execWriteBcast reg val s
  | .writeAll reg vals => Sys2Proof.Machine.execWriteAll reg vals s
  | .init => Sys2Proof.Machine.execInit s
  | .pclear => Sys2Proof.Machine.execPclear s
  | .setPixel dev row col on => Sys2Proof.Machine.execSetPixel dev row col on s
  | .getPixel dev row col => Sys2Proof.Machine.execGetPixel dev row col s
  | .setDigit dev pos ch dp => Sys2Proof.Machine.execSetDigit dev pos ch dp s
  | .writeGlyph dev roff bitmap => Sys2Proof.Machine.execWriteGlyph dev roff bitmap s
  | .getRow dev row => Sys2Proof.Machine.execGetRow dev row s
  | .flush => Sys2Proof.Machine.execFlush s
  | .bclear => Sys2Proof.Machine.execBclear s
  | .glyphFor ch => Sys2Proof.Machine.execGlyphFor ch s
  | .glyphForStrict ch => Sys2Proof.Machine.execGlyphForStrict ch s
  | .scrollStart tmode chars => Sys2Proof.Machine.execScrollStart tmode chars s
  | .scrollStep => Sys2Proof.Machine.execScrollStep s
  | .scrollFinished => Sys2Proof.Machine.execScrollFinished s
  | .scrollStop => Sys2Proof.Machine.execScrollStop s
  | .setIntensity v => Sys2Proof.Machine.execSetIntensity v s

end Sys2Proof.Machine
end

