-- ==== Sys2Proof/Machine/Step.lean ====
section
/-! DEFINITION. The step: take the caller's next record, decode it, run the command (00_scope.md R4, R5; 30_encoding.md R80). The
block has no program counter (10_state.md R21); with no record to take it does nothing (60_exceptions.md R234; log 1). -/

namespace Sys2Proof.Machine

/-- One step of the block. -/
def step (s : State) : Host.Outcome State Fault Refusal :=
  match takeRecord s with
  | none => .next s
  | some (rec, s') =>
    match decode rec with
    | .ok i => exec i s'
    | .error r => .refused (.badRecord r)

/-- The devices a `WRITE_ALL` record is laid out for: the instance's, or one where there is none (log 19). -/
def State.chainLength (s : State) : Nat := (s.inst.map Inst.n).getD 1

/-- The state with the table's instruction as the caller's next record, before those it holds (log 19). -/
def State.withFetchWord (s : State) (nbits w : Nat) : State :=
  { s with inbox := tableRecord s.chainLength nbits w :: s.inbox }

end Sys2Proof.Machine
end

