-- ==== Sys2Proof/Safety.lean ====
section
/-! DEFINITION. The terms the statements use: what a frame holds (30_encoding.md R70), what a run of transport transactions
leaves (00_scope.md R11, 60_exceptions.md R229), the invariant of every state a run reaches, runs of several commands, and the
observer of the chain's registers (70_reset_and_hazards.md R265). -/

namespace Sys2Proof

/-- The commands that emit frames (60_exceptions.md R221, the commands that raise `TransportFailure`). -/
def Instr.emits : Instr → Bool
  | .writeOne _ _ _ => true
  | .writeBcast _ _ => true
  | .writeAll _ _ => true
  | .init => true
  | .pclear => true
  | .flush => true
  | .setIntensity _ => true
  | .new _ _ => false
  | .deviceCount => false
  | .setPixel _ _ _ _ => false
  | .getPixel _ _ _ => false
  | .setDigit _ _ _ _ => false
  | .writeGlyph _ _ _ => false
  | .getRow _ _ => false
  | .bclear => false
  | .glyphFor _ => false
  | .glyphForStrict _ => false
  | .scrollStart _ _ => false
  | .scrollStep => false
  | .scrollFinished => false
  | .scrollStop => false

end Sys2Proof

namespace Sys2Proof.Machine

/-- `f` is a frame for `n` devices: `2·n` bytes, byte `2·i` the register code and byte `2·i + 1` the value of slot `i`
(30_encoding.md R70). -/
def IsFrame (n : Nat) (f : Frame) (slot : Nat → Byte × Byte) : Prop :=
  f.length = 2 * n ∧ ∀ i, i < n → f[2 * i]? = some (slot i).1 ∧ f[2 * i + 1]? = some (slot i).2

/-- What the host will answer the transfer `j` transfers from now (60_exceptions.md R237; log 2). -/
def State.resultAt (s : State) (j : Nat) : HostResult :=
  (s.hostResults[j]?).getD (Config.freeTransferResult (s.transfers + j))

/-- The host answers Ok to the next `k` transfers. -/
def State.HostOk (s : State) (k : Nat) : Prop := ∀ j, j < k → s.resultAt j = .ok

/-- The host answers Ok to the next `k` transfers and `Err(e)` to the one after them. -/
def State.HostFailsAt (s : State) (k : Nat) (e : HostError) : Prop := s.HostOk k ∧ s.resultAt k = .err e

/-- The command is refused (00_scope.md R12). -/
def Refused (o : Outcome) : Prop := ∃ why : Refusal, o = .refused why

/-- The events of the frames, each one transaction with the host's result for it (20_memory.md R60, R61). -/
def State.eventsOf (s : State) (fs : List Frame) : List Event :=
  fs.zipIdx.flatMap fun p => [.acquire, .transfer p.1 (s.resultAt p.2), .release]

/-- The state after those transactions: only the transcript and the host's results have moved on. -/
def State.sent (s : State) (fs : List Frame) : State :=
  { s with transcript := s.transcript ++ s.eventsOf fs,
           hostResults := s.hostResults.drop fs.length,
           transfers := s.transfers + fs.length }

/-- The command emits the frames from state `s`: if the host answers Ok to all of them it ends in `done` of the state they leave;
if the host fails frame `k`, the later frames are not sent, the phase is `Uninitialized` and the response is
`TransportFailure(e)` with the host's error (00_scope.md R11, 60_exceptions.md R229). -/
def Emits (s : State) (fs : List Frame) (done : State → State) (o : Outcome) : Prop :=
  (s.HostOk fs.length → o = .next (done (s.sent fs))) ∧
  ∀ k e, k < fs.length → s.HostFailsAt k e →
    o = .next (((s.sent (fs.take (k + 1))).setPhase .uninitialized).answer (.error (.transportFailure e)))

/-- A transcript of whole transactions, each with one frame of `2·n` bytes (20_memory.md R60). -/
def framed (n : Nat) : List Event → Bool
  | [] => true
  | .acquire :: .transfer f _ :: .release :: rest => decide (f.length = 2 * n) && framed n rest
  | _ => false

/-- A scroll that some run of commands reaches on a chain of `n` devices (10_state.md R29, 45_scroll_engine.md R197). -/
structure ScrollState.Inv (c : Config) (n : Nat) (st : ScrollState) : Prop where
  /-- The text is no longer than the block admits (R29). -/
  chars_le : st.chars.length ≤ min 255 c.maxScrollChars
  /-- The width is the strip's (R29, R192). -/
  width_eq : st.width = stripWidth c st.chars
  /-- The offset is within the strip (R29). -/
  offset_le : st.offset ≤ st.width
  /-- In loop mode the offset is below the width, or 0 (R197). -/
  loop_lt : st.tmode = .loop → st.offset < max 1 st.width
  /-- In bounce mode the offset stays between 0 and M (R197). -/
  bounce_le : st.tmode = .bounce → st.offset ≤ bounceLimit n st
  /-- Only a bounce scroll ever turns (R29). -/
  minus_bounce : st.dir = .minus → st.tmode = .bounce
  /-- Finished means: once mode, at the strip's end (R29, R209). -/
  finished_iff : st.finished = true ↔ st.tmode = .once ∧ st.offset = st.width

/-- An instance that some run of commands reaches (10_state.md R23, R26-R28). -/
structure Inst.Inv (c : Config) (inst : Inst) : Prop where
  /-- 1 ≤ S.N ≤ MAX_DEVICES (R23). -/
  n_pos : 1 ≤ inst.n
  n_le : inst.n ≤ c.maxDevices
  /-- The buffer memory is canonical (log 11). -/
  buf_wf : Memory.wf inst.buf = true
  /-- Nothing is stored outside the buffer (20_memory.md R51), and the positions not in use are 0x00 (10_state.md R27). -/
  buf_in : ∀ cell ∈ inst.buf, cell.1 < 8 * inst.n ∧ cell.1 % 8 < rows c inst.mode
  /-- A scroll exists in matrix mode only (30_encoding.md R88 (e)) and is one that a run reaches. -/
  scroll_inv : ∀ st, inst.scroll = some st → inst.mode = .matrix ∧ st.Inv c inst.n

/-- A state that some run of commands reaches. -/
structure State.Inv (s : State) : Prop where
  inst_inv : ∀ inst, s.inst = some inst → inst.Inv s.cfg
  /-- The transcript is whole transactions of frames of `2·N` bytes (20_memory.md R60). -/
  transcript_framed : ∀ inst, s.inst = some inst → framed inst.n s.transcript = true
  /-- Before `NEW` nothing has been sent (70_reset_and_hazards.md R250). -/
  transcript_empty : s.inst = none → s.transcript = []

/-- Run the commands one after another, stopping at the first refusal or fault (00_scope.md R4). -/
def runCommands : List Instr → State → Outcome
  | [], s => .next s
  | i :: is, s =>
    match exec i s with
    | .next s' => runCommands is s'
    | .fault f => .fault f
    | .refused r => .refused r

/-- What one event tells of the register with code `code` of the device in slot `d`: a transfer that succeeded with that code in the
slot has written its value; a transfer that failed leaves every register unknown (70_reset_and_hazards.md R263, R265; log 15). -/
def chainStep (d : Nat) (code : Byte) (known : Option Byte) : Event → Option Byte
  | .transfer f .ok => if f[2 * d]? = some code then f[2 * d + 1]? else known
  | .transfer _ (.err _) => none
  | .acquire => known
  | .release => known

/-- What the transcript tells of the register with code `code` of the device in slot `d`; none is unknown
(70_reset_and_hazards.md R252, R263, R265; log 15). -/
def chainReg (d : Nat) (code : Byte) (events : List Event) : Option Byte := events.foldl (chainStep d code) none

/-- Whole transactions that the host answered Ok, one per frame (20_memory.md R60). -/
def okEvents (fs : List Frame) : List Event := fs.flatMap fun f => [.acquire, .transfer f .ok, .release]

/-- Strip column `i` of the text is lit in row `r`: the column is a glyph's, not a gap's, and the glyph's pixel is lit
(45_scroll_engine.md R191, R193; 20_memory.md R52). -/
def StripPixel (c : Config) (chars : List Char) (i r : Nat) : Prop :=
  i % (8 + c.gap) < 8 ∧
    ∃ ch, chars[i / (8 + c.gap)]? = some ch ∧ ((glyphM c ch).toList.getD r 0x00#8).getLsbD (7 - i % (8 + c.gap)) = true

/-- The scroll of a state, where there is an instance and it has one. -/
def State.scroll? (s : State) : Option ScrollState := s.inst.bind Inst.scroll

/-- The outcome with its next state changed. -/
def mapNext (g : State → State) : Outcome → Outcome
  | .next s => .next (g s)
  | .fault f => .fault f
  | .refused r => .refused r

end Sys2Proof.Machine
end

