-- ==== Sys2Proof/Certificates/Slice0/Obligations.lean ====
section
/-! DEFINITION. The statements about the block, for the provers. Each docstring says which rule of spec/ it formalises. A next
state written with `answer`, `setInst`, `setPhase` and `sent` says also what did not change: `answer` adds the command's one
response (60_exceptions.md R220), `sent` the transactions of some frames (20_memory.md R60), and nothing else moves. -/

open Sys2Proof Sys2Proof.Machine

/-! ### Records and the step -/

/-- 00_scope.md R4, R5, 30_encoding.md R80: a step takes the caller's next record and runs the command it decodes to, in the state
without that record. That the records wait in a queue is the model's choice (log 1). -/
def Obligations.StepRunsTheDecodedCommand : Prop :=
  ∀ (s : State) (rec : Record) (rest : List Record) (i : Instr),
    s.inbox = rec :: rest → decode rec = .ok i → step s = exec i { s with inbox := rest }

/-- 00_scope.md R12, 30_encoding.md R88 (a)-(c): a record that spells no command is refused. That the refusal carries a reason is
the model's choice (log 17). -/
def Obligations.StepRefusesARecordThatSpellsNoCommand : Prop :=
  ∀ (s : State) (rec : Record) (rest : List Record) (r : Reject),
    s.inbox = rec :: rest → decode rec = .error r → step s = .refused (.badRecord r)

/-- 60_exceptions.md R234: the block never acts except in response to a command. That a step with no record waiting is a step that
changes nothing is the model's choice (log 1). -/
def Obligations.StepWithoutARecordChangesNothing : Prop :=
  ∀ s : State, s.inbox = [] → step s = .next s

/-- 30_encoding.md R86, R88: the reserved tags are exactly the listed ones, and a record with one is refused, whatever follows it.
That the refusal carries a reason, by which the statement tells it from the others, is the model's choice (log 17). -/
def Obligations.ReservedTagsAreRefused : Prop :=
  ∀ (s : State) (tag : Byte) (ops : List Byte) (rest : List Record), s.inbox = (tag :: ops) :: rest →
    ((tag.toNat = 0x00 ∨ (0x03 ≤ tag.toNat ∧ tag.toNat ≤ 0x0F) ∨ (0x15 ≤ tag.toNat ∧ tag.toNat ≤ 0x1F) ∨
        (0x27 ≤ tag.toNat ∧ tag.toNat ≤ 0x2F) ∨ (0x32 ≤ tag.toNat ∧ tag.toNat ≤ 0x3F) ∨ 0x44 ≤ tag.toNat) ↔
      step s = .refused (.badRecord (.reservedTag tag)))

/-- 30_encoding.md R72: the code of each register, one register per code, and the bytes that are no code. -/
def Obligations.RegisterCodesAreTheTableOfR72 : Prop :=
  regCode .noOp = 0x00#8 ∧ (∀ r : Fin 8, regCode (.digit r) = BitVec.ofNat 8 (r.val + 1)) ∧ regCode .decodeMode = 0x09#8 ∧
  regCode .intensity = 0x0A#8 ∧ regCode .scanLimit = 0x0B#8 ∧ regCode .shutdown = 0x0C#8 ∧ regCode .displayTest = 0x0F#8 ∧
  (∀ r r' : Register, regCode r = regCode r' → r = r') ∧
  (∀ r : Register, regOf (regCode r) = .ok r) ∧
  ∀ b : Byte, (b.toNat = 0x0D ∨ b.toNat = 0x0E ∨ 0x10 ≤ b.toNat) → regOf b = .error (.badRegister b)

/-- 30_encoding.md R80-R85, R87: the record written for a well-formed command decodes to it, every operand at every value;
`SET_INTENSITY` decodes to the command it stands for. -/
def Obligations.DecodingAnEncodedCommandGivesItBack : Prop :=
  ∀ i : Instr, i.wf = true → decode (encode i) = .ok i.expand

/-- 30_encoding.md R80-R85: a record that decodes is exactly the record of the command it decodes to, of the length of R84; so no
two records spell one command, and a truncated or over-long record spells none (R88 (b)). For `WRITE_ALL` the length is that of
the values the record holds: that their number is checked against S.N by the command's meaning, not by the decoder, is read from
the spec by inference (log 8, DEDUCED). -/
def Obligations.ADecodedRecordIsTheCommandsRecord : Prop :=
  ∀ (bs : Record) (i : Instr), decode bs = .ok i →
    i.wf = true ∧ i.expand = i ∧ encode i = bs ∧ bs.length = i.recordLength

/-- Words written out from 30_encoding.md R82, R83, one or more per family. In order they are these records of 95_test_vectors.md:
record 1 of Program 1, P1, P11, B11, F1, and the `SCROLL_START` of Program 3. -/
def Obligations.RecordsOfTheSpecDecode : Prop :=
  decode [0x01, 0x02, 0x00] = .ok (.new 2 .matrix) ∧
  decode [0x10, 0x01, 0x0A, 0x05] = .ok (.writeOne 1 .intensity 5) ∧
  decode [0x12, 0x04, 0x11, 0x22, 0x33] = .ok (.writeAll (.digit 3) [0x11, 0x22, 0x33]) ∧
  decode [0x22, 0x00, 0x02, 0x35, 0x00, 0x00, 0x00, 0x01] = .ok (.setDigit 0 2 '5' true) ∧
  decode [0x30, 0x49, 0x00, 0x00, 0x00] = .ok (.glyphFor 'I') ∧
  decode [0x40, 0x00, 0x02, 0x49, 0x00, 0x00, 0x00, 0x4C, 0x00, 0x00, 0x00] = .ok (.scrollStart .loop ['I', 'L'])

/-! ### Admission, reset and construction -/

/-- 10_state.md R22: `NEW` and no other command is admitted in `Unconstructed`, and `NEW` is refused in `Constructed`. -/
def Obligations.OnlyNewIsAdmittedBeforeConstruction : Prop :=
  ∀ (i : Instr) (s : State),
    (s.inst = none → (∀ n mode, i ≠ .new n mode) → Refused (exec i s)) ∧
    (∀ n mode, s.inst = none → i = .new n mode → n.toNat ≤ s.cfg.maxDevices → ∃ t, exec i s = .next t) ∧
    (∀ inst n mode, s.inst = some inst → i = .new n mode → Refused (exec i s))

/-- 30_encoding.md R88 (c), (e), (f), (g): the refusals that depend on the instance: commands outside their mode, a wrong number of
values, too many characters, and no scroll. Which reason a refusal carries is the model's choice (log 17). -/
def Obligations.CommandsTheInstanceDoesNotAdmitAreRefused : Prop :=
  ∀ (s : State) (inst : Inst), s.inst = some inst →
    (inst.mode = .digit → ∀ dev row col on tmode chars,
      exec (.setPixel dev row col on) s = .refused (.wrongMode .digit) ∧
      exec (.getPixel dev row col) s = .refused (.wrongMode .digit) ∧
      exec (.scrollStart tmode chars) s = .refused (.wrongMode .digit) ∧
      exec .scrollStep s = .refused (.wrongMode .digit) ∧
      exec .scrollFinished s = .refused (.wrongMode .digit) ∧
      exec .scrollStop s = .refused (.wrongMode .digit)) ∧
    (inst.mode = .matrix → ∀ dev pos ch dp, exec (.setDigit dev pos ch dp) s = .refused (.wrongMode .matrix)) ∧
    (∀ reg vals, vals.length ≠ inst.n → exec (.writeAll reg vals) s = .refused (.valueCount vals.length)) ∧
    (inst.mode = .matrix → ∀ tmode chars, (255 < chars.length ∨ s.cfg.maxScrollChars < chars.length) →
      exec (.scrollStart tmode chars) s = .refused (.tooManyChars chars.length)) ∧
    (inst.mode = .matrix → inst.scroll = none →
      exec .scrollStep s = .refused .noScroll ∧ exec .scrollFinished s = .refused .noScroll)

/-- 70_reset_and_hazards.md R250: before any command the block is `Unconstructed` and the transcript is empty; that state meets
the invariant of the run. That the model's own fields are empty is the model's choice (logs 1-3). -/
def Obligations.ResetMeetsTheInvariant : Prop :=
  State.reset.inst = none ∧ State.reset.transcript = [] ∧ State.reset.Inv

/-- 42_chain_topology.md R130: `NEW`. -/
def Obligations.NewConstructsTheInstance : Prop :=
  (∀ (n : Byte) (mode : Mode), decode [0x01#8, n, modeCode mode] = .ok (.new n mode)) ∧
  ∀ (n : Byte) (mode : Mode) (s : State),
    (s.inst = none → n.toNat = 0 → exec (.new n mode) s = .next (s.answer (.error .zeroLengthChain))) ∧
    (s.inst = none → 1 ≤ n.toNat → n.toNat ≤ s.cfg.maxDevices → ∃ inst : Inst,
      exec (.new n mode) s = .next ((s.setInst inst).answer (.ok [])) ∧
      inst.n = n.toNat ∧ inst.mode = mode ∧ inst.phase = .uninitialized ∧ inst.scroll = none ∧
      Memory.wf inst.buf = true ∧ ∀ d r, inst.byteAt d r = 0x00#8) ∧
    (s.inst = none → s.cfg.maxDevices < n.toNat → Refused (exec (.new n mode) s)) ∧
    (∀ inst, s.inst = some inst → Refused (exec (.new n mode) s))

/-- 42_chain_topology.md R132: `DEVICE_COUNT` answers S.N, in both phases and modes, and changes nothing. -/
def Obligations.DeviceCountAnswersN : Prop :=
  (decode [0x02#8] = .ok .deviceCount) ∧
  ∀ (s : State) (inst : Inst), s.inst = some inst →
    ∃ b : Byte, exec .deviceCount s = .next (s.answer (.ok [b])) ∧ (inst.Inv s.cfg → b.toNat = inst.n)

/-! ### Register protocol -/

/-- 41_register_protocol.md R100: `WRITE_ONE`, its errors in their order, and its one frame. -/
def Obligations.WriteOneSendsThePairAtTheDevicesSlot : Prop :=
  (∀ (dev : Byte) (reg : Register) (val : Byte), decode [0x10#8, dev, regCode reg, val] = .ok (.writeOne dev reg val)) ∧
  ∀ (dev : Byte) (reg : Register) (val : Byte) (s : State) (inst : Inst), s.inst = some inst →
    (inst.n ≤ dev.toNat → exec (.writeOne dev reg val) s = .next (s.answer (.error .indexOutOfRange))) ∧
    (dev.toNat < inst.n →
      (reg = .intensity → 15 < val.toNat →
        exec (.writeOne dev reg val) s = .next (s.answer (.error .intensityOutOfRange))) ∧
      (¬(reg = .intensity ∧ 15 < val.toNat) → inst.phase = .uninitialized →
        exec (.writeOne dev reg val) s = .next (s.answer (.error .notInitialized))) ∧
      (¬(reg = .intensity ∧ 15 < val.toNat) → inst.phase = .active → ∃ f : Frame,
        IsFrame inst.n f (fun i => if i = dev.toNat then (regCode reg, val) else (0x00#8, 0x00#8)) ∧
        Emits s [f] (fun t => t.answer (.ok [])) (exec (.writeOne dev reg val) s)))

/-- 41_register_protocol.md R101: `WRITE_BCAST`, its errors in their order, and its one frame. -/
def Obligations.WriteBcastSendsThePairAtEverySlot : Prop :=
  (∀ (reg : Register) (val : Byte), decode [0x11#8, regCode reg, val] = .ok (.writeBcast reg val)) ∧
  ∀ (reg : Register) (val : Byte) (s : State) (inst : Inst), s.inst = some inst →
    (reg = .intensity → 15 < val.toNat →
      exec (.writeBcast reg val) s = .next (s.answer (.error .intensityOutOfRange))) ∧
    (¬(reg = .intensity ∧ 15 < val.toNat) → inst.phase = .uninitialized →
      exec (.writeBcast reg val) s = .next (s.answer (.error .notInitialized))) ∧
    (¬(reg = .intensity ∧ 15 < val.toNat) → inst.phase = .active → ∃ f : Frame,
      IsFrame inst.n f (fun _ => (regCode reg, val)) ∧
      Emits s [f] (fun t => t.answer (.ok [])) (exec (.writeBcast reg val) s))

/-- 30_encoding.md R87, 41_register_protocol.md R103, 95_test_vectors.md E5: `SET_INTENSITY v` fails above 15 in every phase, and
otherwise writes v into the Intensity register of every device. That it is a command of its own beside `WRITE_BCAST` is the
model's choice (log 9). -/
def Obligations.SetIntensityBroadcastsTheIntensity : Prop :=
  ∀ (v : Byte) (s : State) (inst : Inst), s.inst = some inst →
    (15 < v.toNat → exec (.setIntensity v) s = .next (s.answer (.error .intensityOutOfRange))) ∧
    (v.toNat ≤ 15 → inst.phase = .uninitialized →
      exec (.setIntensity v) s = .next (s.answer (.error .notInitialized))) ∧
    (v.toNat ≤ 15 → inst.phase = .active → ∃ f : Frame,
      IsFrame inst.n f (fun _ => (0x0A#8, v)) ∧
      Emits s [f] (fun t => t.answer (.ok [])) (exec (.setIntensity v) s))

/-- 41_register_protocol.md R102: `WRITE_ALL`, its refusal, its errors in their order, and its one frame. -/
def Obligations.WriteAllSendsEachDeviceItsValue : Prop :=
  (∀ (reg : Register) (vals : List Byte), 1 ≤ vals.length → vals.length ≤ 255 →
    decode (0x12#8 :: regCode reg :: vals) = .ok (.writeAll reg vals)) ∧
  ∀ (reg : Register) (vals : List Byte) (s : State) (inst : Inst), s.inst = some inst →
    (vals.length ≠ inst.n → Refused (exec (.writeAll reg vals) s)) ∧
    (vals.length = inst.n →
      (reg = .intensity → (∃ v ∈ vals, 15 < v.toNat) →
        exec (.writeAll reg vals) s = .next (s.answer (.error .intensityOutOfRange))) ∧
      (¬(reg = .intensity ∧ ∃ v ∈ vals, 15 < v.toNat) → inst.phase = .uninitialized →
        exec (.writeAll reg vals) s = .next (s.answer (.error .notInitialized))) ∧
      (¬(reg = .intensity ∧ ∃ v ∈ vals, 15 < v.toNat) → inst.phase = .active → ∃ f : Frame,
        IsFrame inst.n f (fun d => (regCode reg, vals.getD d 0x00#8)) ∧
        Emits s [f] (fun t => t.answer (.ok [])) (exec (.writeAll reg vals) s)))

/-- 41_register_protocol.md R102's corner case: `WRITE_ALL` with one value for every device is `WRITE_BCAST` of that value. -/
def Obligations.WriteAllOfEqualValuesIsWriteBcast : Prop :=
  ∀ (reg : Register) (v : Byte) (s : State) (inst : Inst), s.inst = some inst → 1 ≤ inst.n →
    exec (.writeAll reg (List.replicate inst.n v)) s = exec (.writeBcast reg v) s

/-- 41_register_protocol.md R110 with the values of 30_encoding.md R73: `INIT` sends the five broadcast frames in that order and
then the phase is `Active`; a failing transfer ends it with the phase `Uninitialized`. -/
def Obligations.InitSendsTheFiveFramesAndActivates : Prop :=
  (decode [0x13#8] = .ok .init) ∧
  ∀ (s : State) (inst : Inst), s.inst = some inst →
    ∃ f0 f1 f2 f3 f4 : Frame,
      IsFrame inst.n f0 (fun _ => (0x0F#8, 0x00#8)) ∧
      IsFrame inst.n f1 (fun _ => (0x09#8, 0x00#8)) ∧
      IsFrame inst.n f2 (fun _ =>
        (0x0B#8, match inst.mode with | .matrix => 0x07#8 | .digit => BitVec.ofNat 8 (s.cfg.digitCount - 1))) ∧
      IsFrame inst.n f3 (fun _ => (0x0A#8, BitVec.ofNat 8 s.cfg.defaultIntensity.val)) ∧
      IsFrame inst.n f4 (fun _ => (0x0C#8, 0x01#8)) ∧
      Emits s [f0, f1, f2, f3, f4] (fun t => (t.setPhase .active).answer (.ok [])) (exec .init s)

/-- 41_register_protocol.md R115: `PCLEAR` zeroes the buffer before the first frame, then sends the eight broadcast frames
`(Digit(r), 0x00)`, in both phases and modes. -/
def Obligations.PclearZeroesTheBufferAndTheDigitRegisters : Prop :=
  (decode [0x14#8] = .ok .pclear) ∧
  ∀ (s : State) (inst : Inst), s.inst = some inst →
    ∃ (m : Memory) (fs : List Frame),
      Memory.wf m = true ∧ (∀ a, Memory.read m a = 0x00#8) ∧ fs.length = 8 ∧
      (∀ r, r < 8 → ∃ f, fs[r]? = some f ∧ IsFrame inst.n f (fun _ => (BitVec.ofNat 8 (r + 1), 0x00#8))) ∧
      Emits (s.setInst { inst with buf := m }) fs (fun t => t.answer (.ok [])) (exec .pclear s)

/-! ### Display buffer -/

/-- 43_display_buffer.md R140: `SET_PIXEL` sets bit 7 − col of one byte to `on`; every other bit and byte keeps its value. The
buffer is assumed canonical, which every step keeps (`EveryStepKeepsTheInvariant`). -/
def Obligations.SetPixelSetsOneBit : Prop :=
  (∀ (dev row col : Byte) (on : Bool), decode [0x20#8, dev, row, col, flagByte on] = .ok (.setPixel dev row col on)) ∧
  ∀ (dev row col : Byte) (on : Bool) (s : State) (inst : Inst), s.inst = some inst →
    (inst.mode = .digit → Refused (exec (.setPixel dev row col on) s)) ∧
    (inst.mode = .matrix →
    ((inst.n ≤ dev.toNat ∨ 8 ≤ row.toNat ∨ 8 ≤ col.toNat) →
      exec (.setPixel dev row col on) s = .next (s.answer (.error .indexOutOfRange))) ∧
    (dev.toNat < inst.n → row.toNat < 8 → col.toNat < 8 → Memory.wf inst.buf = true → ∃ m : Memory,
      exec (.setPixel dev row col on) s = .next ((s.setInst { inst with buf := m }).answer (.ok [])) ∧
      Memory.wf m = true ∧
      (∀ k, k < 8 → (Memory.read m (8 * dev.toNat + row.toNat)).getLsbD k =
        if k = 7 - col.toNat then on else (Memory.read inst.buf (8 * dev.toNat + row.toNat)).getLsbD k) ∧
      ∀ a, a ≠ 8 * dev.toNat + row.toNat → Memory.read m a = Memory.read inst.buf a))

/-- 43_display_buffer.md R142: `GET_PIXEL` answers bit 7 − col of the row byte as 0 or 1 and changes nothing. -/
def Obligations.GetPixelAnswersTheBit : Prop :=
  (∀ dev row col : Byte, decode [0x21#8, dev, row, col] = .ok (.getPixel dev row col)) ∧
  ∀ (dev row col : Byte) (s : State) (inst : Inst), s.inst = some inst →
    (inst.mode = .digit → Refused (exec (.getPixel dev row col) s)) ∧
    (inst.mode = .matrix →
    ((inst.n ≤ dev.toNat ∨ 8 ≤ row.toNat ∨ 8 ≤ col.toNat) →
      exec (.getPixel dev row col) s = .next (s.answer (.error .indexOutOfRange))) ∧
    (dev.toNat < inst.n → row.toNat < 8 → col.toNat < 8 →
      exec (.getPixel dev row col) s = .next (s.answer (.ok
        [if (Memory.read inst.buf (8 * dev.toNat + row.toNat)).getLsbD (7 - col.toNat) then 0x01#8 else 0x00#8]))))

/-- 95_test_vectors.md E2, 43_display_buffer.md R157: a pixel set and read back is the bit written, in either phase, and nothing is
sent. -/
def Obligations.SetPixelThenGetPixelAnswersTheBitWritten : Prop :=
  ∀ (dev row col : Byte) (on : Bool) (s : State) (inst : Inst), s.inst = some inst → inst.mode = .matrix →
    Memory.wf inst.buf = true → dev.toNat < inst.n → row.toNat < 8 → col.toNat < 8 →
    ∃ t : State, runCommands [.setPixel dev row col on, .getPixel dev row col] s = .next t ∧
      t.responses = s.responses ++ [.ok [], .ok [if on then 0x01#8 else 0x00#8]] ∧ t.transcript = s.transcript

/-- 43_display_buffer.md R145, 44_font_table.md R171: `SET_DIGIT` writes the font's segments, blank where the font defines none,
with bit 7 replaced by `dp`; every other byte keeps its value. -/
def Obligations.SetDigitWritesSegmentsAndPoint : Prop :=
  (∀ (dev pos : Byte) (ch : Char) (dp : Bool),
    decode ([0x22#8, dev, pos] ++ charBytes ch ++ [flagByte dp]) = .ok (.setDigit dev pos ch dp)) ∧
  ∀ (dev pos : Byte) (ch : Char) (dp : Bool) (s : State) (inst : Inst), s.inst = some inst →
    (inst.mode = .matrix → Refused (exec (.setDigit dev pos ch dp) s)) ∧
    (inst.mode = .digit →
    ((inst.n ≤ dev.toNat ∨ s.cfg.digitCount ≤ pos.toNat) →
      exec (.setDigit dev pos ch dp) s = .next (s.answer (.error .indexOutOfRange))) ∧
    (dev.toNat < inst.n → pos.toNat < s.cfg.digitCount → Memory.wf inst.buf = true → ∃ m : Memory,
      exec (.setDigit dev pos ch dp) s = .next ((s.setInst { inst with buf := m }).answer (.ok [])) ∧
      Memory.wf m = true ∧
      (Memory.read m (8 * dev.toNat + pos.toNat)).getLsbD 7 = dp ∧
      (∀ k, k < 7 → (Memory.read m (8 * dev.toNat + pos.toNat)).getLsbD k =
        match s.cfg.fontD.lookup ch with | some seg => seg.getLsbD k | none => false) ∧
      ∀ a, a ≠ 8 * dev.toNat + pos.toNat → Memory.read m a = Memory.read inst.buf a))

/-- 43_display_buffer.md R147: `WRITE_GLYPH` overwrites rows roff .. roff+L−1 of one device; nothing is clipped or partly
written, and every other byte keeps its value. -/
def Obligations.WriteGlyphOverwritesABlockOfRows : Prop :=
  (∀ (dev roff : Byte) (bitmap : List Byte), bitmap.length ≤ 255 →
    decode (0x23#8 :: dev :: roff :: BitVec.ofNat 8 bitmap.length :: bitmap) = .ok (.writeGlyph dev roff bitmap)) ∧
  ∀ (dev roff : Byte) (bitmap : List Byte) (s : State) (inst : Inst), s.inst = some inst →
    ((inst.n ≤ dev.toNat ∨ rows s.cfg inst.mode < roff.toNat + bitmap.length) →
      exec (.writeGlyph dev roff bitmap) s = .next (s.answer (.error .indexOutOfRange))) ∧
    (dev.toNat < inst.n → roff.toNat + bitmap.length ≤ rows s.cfg inst.mode → Memory.wf inst.buf = true → ∃ m : Memory,
      exec (.writeGlyph dev roff bitmap) s = .next ((s.setInst { inst with buf := m }).answer (.ok [])) ∧
      Memory.wf m = true ∧
      (∀ k, k < bitmap.length → some (Memory.read m (8 * dev.toNat + roff.toNat + k)) = bitmap[k]?) ∧
      ∀ a, (a < 8 * dev.toNat + roff.toNat ∨ 8 * dev.toNat + roff.toNat + bitmap.length ≤ a) →
        Memory.read m a = Memory.read inst.buf a)

/-- 43_display_buffer.md R149: `GET_ROW` answers one buffer byte and changes nothing. -/
def Obligations.GetRowAnswersTheByte : Prop :=
  (∀ dev row : Byte, decode [0x24#8, dev, row] = .ok (.getRow dev row)) ∧
  ∀ (dev row : Byte) (s : State) (inst : Inst), s.inst = some inst →
    ((inst.n ≤ dev.toNat ∨ rows s.cfg inst.mode ≤ row.toNat) →
      exec (.getRow dev row) s = .next (s.answer (.error .indexOutOfRange))) ∧
    (dev.toNat < inst.n → row.toNat < rows s.cfg inst.mode →
      exec (.getRow dev row) s = .next (s.answer (.ok [Memory.read inst.buf (8 * dev.toNat + row.toNat)])))

/-- 43_display_buffer.md R150: `FLUSH` sends one frame per row in use, in ascending order, slot d holding `(Digit(r), buf[d][r])`;
the buffer is unchanged. -/
def Obligations.FlushSendsEveryRow : Prop :=
  (decode [0x25#8] = .ok .flush) ∧
  ∀ (s : State) (inst : Inst), s.inst = some inst →
    (inst.phase = .uninitialized → exec .flush s = .next (s.answer (.error .notInitialized))) ∧
    (inst.phase = .active → ∃ fs : List Frame,
      fs.length = (match inst.mode with | .matrix => 8 | .digit => s.cfg.digitCount) ∧
      (∀ r, r < fs.length → ∃ f, fs[r]? = some f ∧
        IsFrame inst.n f (fun d => (BitVec.ofNat 8 (r + 1), Memory.read inst.buf (8 * d + r)))) ∧
      Emits s fs (fun t => t.answer (.ok [])) (exec .flush s))

/-- 43_display_buffer.md R155: `BCLEAR` zeroes the buffer and sends nothing. -/
def Obligations.BclearZeroesTheBuffer : Prop :=
  (decode [0x26#8] = .ok .bclear) ∧
  ∀ (s : State) (inst : Inst), s.inst = some inst → ∃ m : Memory,
    exec .bclear s = .next ((s.setInst { inst with buf := m }).answer (.ok [])) ∧
    Memory.wf m = true ∧ ∀ a, Memory.read m a = 0x00#8

/-- 95_test_vectors.md E6, 90_conflicts.md C3: `BCLEAR` then `FLUSH` in `Active` sends one frame per row in use, every value zero. -/
def Obligations.BclearThenFlushSendsZeroRows : Prop :=
  ∀ (s : State) (inst : Inst), s.inst = some inst → inst.phase = .active → s.HostOk (rows s.cfg inst.mode) →
    ∃ (t : State) (fs : List Frame), runCommands [.bclear, .flush] s = .next t ∧
      t.transcript = s.transcript ++ okEvents fs ∧ fs.length = rows s.cfg inst.mode ∧
      ∀ r, r < fs.length → ∃ f, fs[r]? = some f ∧ IsFrame inst.n f (fun _ => (BitVec.ofNat 8 (r + 1), 0x00#8))

/-! ### Font table -/

/-- 44_font_table.md R170, R171: `GLYPH_FOR` answers the font's glyph, eight bytes or one, blank where the font defines none; it
never fails and changes nothing. -/
def Obligations.GlyphForAnswersTheGlyphOrBlank : Prop :=
  (∀ ch : Char, decode (0x30#8 :: charBytes ch) = .ok (.glyphFor ch)) ∧
  ∀ (ch : Char) (s : State) (inst : Inst), s.inst = some inst →
    (inst.mode = .matrix → exec (.glyphFor ch) s = .next (s.answer (.ok
      (match s.cfg.fontM.lookup ch with | some g => g.toList | none => [0, 0, 0, 0, 0, 0, 0, 0])))) ∧
    (inst.mode = .digit → exec (.glyphFor ch) s = .next (s.answer (.ok
      (match s.cfg.fontD.lookup ch with | some seg => [seg] | none => [0]))))

/-- 44_font_table.md R172, R173: `GLYPH_FOR_STRICT` answers what `GLYPH_FOR` answers for a character that the font of the
instance's mode defines, and `UnsupportedCharacter` for another; it changes nothing. That SUPPORTED is, mode by mode, the set of
characters of that mode's font table is read from the spec by inference (log 5, DEDUCED). -/
def Obligations.GlyphForStrictFailsOnUnsupported : Prop :=
  (∀ ch : Char, decode (0x31#8 :: charBytes ch) = .ok (.glyphForStrict ch)) ∧
  ∀ (ch : Char) (s : State) (inst : Inst), s.inst = some inst →
    ((match inst.mode with | .matrix => (s.cfg.fontM.lookup ch).isSome | .digit => (s.cfg.fontD.lookup ch).isSome) = true →
      exec (.glyphForStrict ch) s = exec (.glyphFor ch) s ∧
      ∃ bytes, exec (.glyphForStrict ch) s = .next (s.answer (.ok bytes))) ∧
    ((match inst.mode with | .matrix => (s.cfg.fontM.lookup ch).isSome | .digit => (s.cfg.fontD.lookup ch).isSome) = false →
      exec (.glyphForStrict ch) s = .next (s.answer (.error .unsupportedCharacter)))

/-! ### Scroll engine -/

/-- 45_scroll_engine.md R200, R192: `SCROLL_START` replaces the scroll by a new one at offset 0 and writes nothing else. -/
def Obligations.ScrollStartCreatesTheScroll : Prop :=
  (∀ (tmode : TMode) (chars : List Char), chars.length ≤ 255 →
    decode (0x40#8 :: tmodeCode tmode :: BitVec.ofNat 8 chars.length :: chars.flatMap charBytes) =
      .ok (.scrollStart tmode chars)) ∧
  ∀ (tmode : TMode) (chars : List Char) (s : State) (inst : Inst), s.inst = some inst →
    (inst.mode = .digit → Refused (exec (.scrollStart tmode chars) s)) ∧
    (inst.mode = .matrix →
    ((255 < chars.length ∨ s.cfg.maxScrollChars < chars.length) →
      Refused (exec (.scrollStart tmode chars) s)) ∧
    (chars.length ≤ 255 → chars.length ≤ s.cfg.maxScrollChars → ∃ st : ScrollState,
      exec (.scrollStart tmode chars) s = .next ((s.setInst { inst with scroll := some st }).answer (.ok [])) ∧
      st.chars = chars ∧ st.tmode = tmode ∧ st.offset = 0 ∧ st.dir = .plus ∧
      (chars = [] → st.width = 0) ∧
      (chars ≠ [] → st.width = chars.length * 8 + (chars.length - 1) * s.cfg.scrollGap.val) ∧
      (st.finished = true ↔ tmode = .once ∧ st.width = 0)))

/-- 45_scroll_engine.md R201, R197: `SCROLL_STEP` does nothing in a finished once scroll; otherwise it gives offset, direction and
finished the values of R197, case by case, keeps the scroll's text, mode and width, and writes the window at the new offset into
every byte of the buffer, and sends nothing. M of R197 is `st.width - 8 * inst.n`, 0 where the strip fits the window. The buffer
is assumed canonical, which every step keeps. -/
def Obligations.ScrollStepAdvancesAndWritesTheWindow : Prop :=
  (decode [0x41#8] = .ok .scrollStep) ∧
  ∀ (s : State) (inst : Inst), s.inst = some inst →
    (inst.mode = .digit → Refused (exec .scrollStep s)) ∧
    (inst.mode = .matrix → inst.scroll = none → Refused (exec .scrollStep s)) ∧
    ∀ st : ScrollState, inst.mode = .matrix → inst.scroll = some st →
    (st.tmode = .once → st.finished = true → exec .scrollStep s = .next (s.answer (.ok []))) ∧
    (¬(st.tmode = .once ∧ st.finished = true) → Memory.wf inst.buf = true → ∃ (m : Memory) (st' : ScrollState),
      exec .scrollStep s = .next ((s.setInst { inst with buf := m, scroll := some st' }).answer (.ok [])) ∧
      st'.chars = st.chars ∧ st'.tmode = st.tmode ∧ st'.width = st.width ∧
      (st.tmode = .loop → st'.dir = st.dir ∧ st'.finished = false ∧
        (st.width = 0 → st'.offset = 0) ∧ (st.width ≠ 0 → st'.offset = (st.offset + 1) % st.width)) ∧
      (st.tmode = .bounce → st'.finished = false ∧
        (st.width ≤ 8 * inst.n → st'.offset = 0 ∧ st'.dir = st.dir) ∧
        (8 * inst.n < st.width →
          (st.dir = .plus → st.offset < st.width - 8 * inst.n → st'.offset = st.offset + 1 ∧ st'.dir = .plus) ∧
          (st.dir = .plus → st.width - 8 * inst.n ≤ st.offset → st'.offset = st.offset - 1 ∧ st'.dir = .minus) ∧
          (st.dir = .minus → 0 < st.offset → st'.offset = st.offset - 1 ∧ st'.dir = .minus) ∧
          (st.dir = .minus → st.offset = 0 → st'.offset = st.offset + 1 ∧ st'.dir = .plus))) ∧
      (st.tmode = .once → st'.dir = st.dir ∧ st'.offset = min (st.offset + 1) st.width ∧
        (st'.finished = true ↔ st'.offset = st.width)) ∧
      Memory.wf m = true ∧
      (∀ d r, d < inst.n → r < 8 → Memory.read m (8 * d + r) = winRow s.cfg st' st'.offset d r) ∧
      ∀ a, 8 * inst.n ≤ a → Memory.read m a = Memory.read inst.buf a)

/-- 70_reset_and_hazards.md R266: what a `SCROLL_STEP` leaves does not depend on what the buffer held, unless the scroll is a
finished once scroll: pixels drawn between two steps are lost. -/
def Obligations.ScrollStepForgetsTheOldBuffer : Prop :=
  ∀ (s : State) (inst : Inst) (m : Memory) (st : ScrollState), s.inst = some inst → inst.scroll = some st →
    ¬(st.tmode = .once ∧ st.finished = true) →
    Memory.wf inst.buf = true → Memory.wf m = true →
    (∀ cell ∈ inst.buf, cell.1 < 8 * inst.n) → (∀ cell ∈ m, cell.1 < 8 * inst.n) →
    exec .scrollStep (s.setInst { inst with buf := m }) = exec .scrollStep s

/-- 45_scroll_engine.md R191, R193, R195, R196, 20_memory.md R52: pixel (r, col) of device d in the window at offset o is lit
exactly when the strip column it shows is lit in row r: column (o + j) mod w in loop mode, o + j below w in the other modes, and
nothing beyond, with j = 8·d + col. -/
def Obligations.WindowPixelIsTheStripPixel : Prop :=
  ∀ (c : Config) (st : ScrollState) (o d r col : Nat), r < 8 → col < 8 →
    (st.tmode = .loop → st.width = 0 → (winRow c st o d r).getLsbD (7 - col) = false) ∧
    (st.tmode = .loop → st.width ≠ 0 → ((winRow c st o d r).getLsbD (7 - col) = true ↔
      StripPixel c st.chars ((o + (8 * d + col)) % st.width) r)) ∧
    (st.tmode ≠ .loop → o + (8 * d + col) < st.width → ((winRow c st o d r).getLsbD (7 - col) = true ↔
      StripPixel c st.chars (o + (8 * d + col)) r)) ∧
    (st.tmode ≠ .loop → st.width ≤ o + (8 * d + col) → (winRow c st o d r).getLsbD (7 - col) = false)

/-- 45_scroll_engine.md R208: every strip column a window reads lies in the strip, and belongs to a character of the text or to the
gap after one. -/
def Obligations.WindowReadsStayInsideTheStrip : Prop :=
  ∀ (c : Config) (n : Nat) (st : ScrollState) (o j i : Nat), st.Inv c n → winIndex st o j = some i →
    i < stripWidth c st.chars ∧ i / (8 + c.gap) < st.chars.length

/-- 45_scroll_engine.md R209: a once scroll is at offset k after k steps, up to its width, and is finished exactly after `width`
steps; every further step changes no offset. -/
def Obligations.OnceScrollFinishesAfterWidthSteps : Prop :=
  ∀ (s : State) (inst : Inst) (chars : List Char) (k : Nat), s.inst = some inst → inst.mode = .matrix →
    chars.length ≤ min 255 s.cfg.maxScrollChars →
    ∃ (t : State) (st : ScrollState),
      runCommands (.scrollStart .once chars :: List.replicate k .scrollStep) s = .next t ∧ t.scroll? = some st ∧
      st.offset = min k (stripWidth s.cfg chars) ∧ (st.finished = true ↔ stripWidth s.cfg chars ≤ k)

/-- 45_scroll_engine.md R197: a loop scroll is at offset k mod width after k steps, at 0 when the strip is empty, and never
finishes. -/
def Obligations.LoopScrollWrapsAtTheWidth : Prop :=
  ∀ (s : State) (inst : Inst) (chars : List Char) (k : Nat), s.inst = some inst → inst.mode = .matrix →
    chars.length ≤ min 255 s.cfg.maxScrollChars →
    ∃ (t : State) (st : ScrollState),
      runCommands (.scrollStart .loop chars :: List.replicate k .scrollStep) s = .next t ∧ t.scroll? = some st ∧
      (chars = [] → st.offset = 0) ∧ (chars ≠ [] → st.offset = k % stripWidth s.cfg chars) ∧ st.finished = false

/-- 45_scroll_engine.md R197: a bounce scroll goes back and forth between 0 and M = max(width − 8·N, 0), each end once per pass:
after k steps it is at q = k mod 2M on the way out, at 2M − q on the way back, and at 0 when M = 0; it never finishes. -/
def Obligations.BounceScrollGoesBackAndForth : Prop :=
  ∀ (s : State) (inst : Inst) (chars : List Char) (k : Nat), s.inst = some inst → inst.mode = .matrix →
    chars.length ≤ min 255 s.cfg.maxScrollChars →
    ∃ (t : State) (st : ScrollState),
      runCommands (.scrollStart .bounce chars :: List.replicate k .scrollStep) s = .next t ∧ t.scroll? = some st ∧
      st.finished = false ∧
      (stripWidth s.cfg chars ≤ 8 * inst.n → st.offset = 0) ∧
      (8 * inst.n < stripWidth s.cfg chars →
        st.offset =
          if k % (2 * (stripWidth s.cfg chars - 8 * inst.n)) ≤ stripWidth s.cfg chars - 8 * inst.n
          then k % (2 * (stripWidth s.cfg chars - 8 * inst.n))
          else 2 * (stripWidth s.cfg chars - 8 * inst.n) - k % (2 * (stripWidth s.cfg chars - 8 * inst.n)))

/-- 45_scroll_engine.md R206: `SCROLL_FINISHED` answers the finished flag as 0 or 1 and changes nothing. -/
def Obligations.ScrollFinishedAnswersTheFlag : Prop :=
  (decode [0x42#8] = .ok .scrollFinished) ∧
  ∀ (s : State) (inst : Inst), s.inst = some inst →
    (inst.mode = .digit → Refused (exec .scrollFinished s)) ∧
    (inst.mode = .matrix →
    (inst.scroll = none → Refused (exec .scrollFinished s)) ∧
    (∀ st, inst.scroll = some st → ∃ b : Byte, exec .scrollFinished s = .next (s.answer (.ok [b])) ∧
      (st.finished = true → b = 0x01#8) ∧ (st.finished = false → b = 0x00#8) ∧
      (st.Inv s.cfg inst.n → st.tmode ≠ .once → b = 0x00#8)))

/-- 45_scroll_engine.md R207: `SCROLL_STOP` discards the scroll, with or without one, and keeps the buffer; a `SCROLL_STEP` after it
is refused. -/
def Obligations.ScrollStopDiscardsTheScroll : Prop :=
  (decode [0x43#8] = .ok .scrollStop) ∧
  ∀ (s : State) (inst : Inst), s.inst = some inst →
    (inst.mode = .digit → Refused (exec .scrollStop s)) ∧
    (inst.mode = .matrix →
    exec .scrollStop s = .next ((s.setInst { inst with scroll := none }).answer (.ok [])) ∧
    Refused (runCommands [.scrollStop, .scrollStep] s))

/-! ### Whole-machine rules -/

/-- 20_memory.md R51: no command forms an address outside the buffer: no step of any state faults. -/
def Obligations.NoStepAccessesOutsideTheBuffer : Prop :=
  ∀ (s : State) (f : Fault), step s ≠ .fault f

/-- 10_state.md R23, R26-R29, 20_memory.md R51, R60: every step keeps the invariant: 1 ≤ N ≤ MAX_DEVICES, a canonical buffer inside
0..8·N−1 with unused positions zero, a legal scroll in matrix mode only, and a transcript of whole transactions of 2·N bytes. -/
def Obligations.EveryStepKeepsTheInvariant : Prop :=
  ∀ s t : State, s.Inv → step s = .next t → t.Inv

/-- 10_state.md R27: in digit mode the positions at or above DIGIT_COUNT read 0x00 after every step from a state of a run. -/
def Obligations.UnusedDigitPositionsStayZero : Prop :=
  ∀ (s t : State) (inst : Inst), s.Inv → step s = .next t → t.inst = some inst → inst.mode = .digit →
    ∀ d r, s.cfg.digitCount ≤ r → r < 8 → inst.byteAt d r = 0x00#8

/-- 60_exceptions.md R220: a command ends with exactly one response, or is refused; it never ends another way. -/
def Obligations.EveryCommandAnswersExactlyOnceOrIsRefused : Prop :=
  ∀ (i : Instr) (s : State),
    (∃ (t : State) (r : Response), exec i s = .next t ∧ t.responses = s.responses ++ [r]) ∨
    Refused (exec i s)

/-- 30_encoding.md R82, R83: how many result bytes an Ok response carries: one for a query, a glyph's bytes for a lookup, none for
any other command. -/
def Obligations.ResultBytesHaveTheLengthOfTheTagMap : Prop :=
  ∀ (i : Instr) (s t : State) (inst : Inst) (bytes : List Byte), exec i s = .next t → t.inst = some inst →
    t.responses = s.responses ++ [.ok bytes] →
    bytes.length =
      match i with
      | .deviceCount => 1
      | .getPixel _ _ _ => 1
      | .getRow _ _ => 1
      | .scrollFinished => 1
      | .glyphFor _ => (match inst.mode with | .matrix => 8 | .digit => 1)
      | .glyphForStrict _ => (match inst.mode with | .matrix => 8 | .digit => 1)
      | _ => 0

/-- 60_exceptions.md R221: the status codes, which command raises which error, and that every error but `TransportFailure` leaves
the state as it was but for the response (00_scope.md R10). `SET_INTENSITY` counts as the `WRITE_BCAST` it stands for (30_encoding.md
R87). That the byte form of a `TransportFailure` is its status byte alone, the host's error value having none, is the model's
choice (log 6); the value itself is the payload `e` of the response, the one the host gave. -/
def Obligations.ErrorsFollowTheStatusTable : Prop :=
  (∀ bytes, (Response.ok bytes).bytes = 0x00#8 :: bytes) ∧
  (∀ e, [(Response.error .zeroLengthChain).bytes, (Response.error .indexOutOfRange).bytes,
     (Response.error .intensityOutOfRange).bytes, (Response.error .notInitialized).bytes,
     (Response.error .unsupportedCharacter).bytes, (Response.error (.transportFailure e)).bytes] =
    [[0x01#8], [0x02#8], [0x03#8], [0x04#8], [0x05#8], [0x06#8]]) ∧
  ∀ (i : Instr) (s t : State) (k : ErrorKind), exec i s = .next t → t.responses = s.responses ++ [.error k] →
    match k with
    | .zeroLengthChain => t = s.answer (.error k) ∧ ∃ mode, i = .new 0 mode
    | .indexOutOfRange => t = s.answer (.error k) ∧
        ((∃ dev reg val, i = .writeOne dev reg val) ∨ (∃ dev row col on, i = .setPixel dev row col on) ∨
         (∃ dev row col, i = .getPixel dev row col) ∨ (∃ dev pos ch dp, i = .setDigit dev pos ch dp) ∨
         (∃ dev roff bitmap, i = .writeGlyph dev roff bitmap) ∨ ∃ dev row, i = .getRow dev row)
    | .intensityOutOfRange => t = s.answer (.error k) ∧
        ((∃ dev val, i = .writeOne dev .intensity val) ∨ (∃ val, i = .writeBcast .intensity val) ∨
         (∃ vals, i = .writeAll .intensity vals) ∨ ∃ v, i = .setIntensity v)
    | .notInitialized => t = s.answer (.error k) ∧
        ((∃ dev reg val, i = .writeOne dev reg val) ∨ (∃ reg val, i = .writeBcast reg val) ∨
         (∃ reg vals, i = .writeAll reg vals) ∨ i = .flush ∨ ∃ v, i = .setIntensity v)
    | .unsupportedCharacter => t = s.answer (.error k) ∧ ∃ ch, i = .glyphForStrict ch
    | .transportFailure e => i.emits = true ∧ ∃ (events : List Event) (f : Frame),
        t.transcript = s.transcript ++ events ++ [.acquire, .transfer f (.err e), .release]

/-- 60_exceptions.md R229: what `TransportFailure(e)` leaves: the frames up to the failing one, each a whole transaction, the phase
`Uninitialized`, and everything else as it was, but for the buffer `PCLEAR` has zeroed. -/
def Obligations.TransportFailureLeavesWhatR229Says : Prop :=
  ∀ (i : Instr) (s t : State) (e : HostError), exec i s = .next t →
    t.responses = s.responses ++ [.error (.transportFailure e)] →
    ∃ (inst j : Inst) (fs : List Frame) (f : Frame), s.inst = some inst ∧ t.inst = some j ∧
      t.transcript = s.transcript ++ okEvents fs ++ [.acquire, .transfer f (.err e), .release] ∧
      j.phase = .uninitialized ∧ j.n = inst.n ∧ j.mode = inst.mode ∧ j.scroll = inst.scroll ∧
      (i ≠ .pclear → j.buf = inst.buf) ∧ (i = .pclear → ∀ a, Memory.read j.buf a = 0x00#8) ∧
      t.cfg = s.cfg ∧ t.inbox = s.inbox

/-- 20_memory.md R60, R62: a command only adds to the transcript, and what it adds is whole transactions: Acquire, one Transfer of a
frame of 2·N bytes, Release. -/
def Obligations.TheTranscriptGrowsByWholeTransactions : Prop :=
  ∀ (i : Instr) (s t : State) (inst : Inst), s.inst = some inst → exec i s = .next t →
    ∃ events : List Event, t.transcript = s.transcript ++ events ∧ framed inst.n events = true

/-- 20_memory.md R56, 43_display_buffer.md R156, 45_scroll_engine.md R190: a command that is no register write, `INIT`, `PCLEAR` or
`FLUSH` sends nothing and takes nothing from the host. -/
def Obligations.OnlyEmittingCommandsReachTheHost : Prop :=
  ∀ (i : Instr) (s t : State), i.emits = false → exec i s = .next t →
    t.transcript = s.transcript ∧ t.hostResults = s.hostResults ∧ t.transfers = s.transfers

/-- 10_state.md R23, R25, R33: after `NEW` the device count and the mode never change, no command returns the block to
`Unconstructed` (70_reset_and_hazards.md R251), and the configuration never changes. -/
def Obligations.CountModeAndConfigurationAreFixed : Prop :=
  ∀ s t : State, step s = .next t → t.cfg = s.cfg ∧
    ∀ inst, s.inst = some inst → ∃ j, t.inst = some j ∧ j.n = inst.n ∧ j.mode = inst.mode

/-- 10_state.md R24: the phase changes by a completed `INIT` and by a `TransportFailure`, and by nothing else. -/
def Obligations.ThePhaseChangesOnlyByInitAndTransportFailure : Prop :=
  ∀ (i : Instr) (s t : State) (inst j : Inst) (r : Response), s.inst = some inst → exec i s = .next t → t.inst = some j →
    t.responses = s.responses ++ [r] →
    (∀ e, r = .error (.transportFailure e) → j.phase = .uninitialized) ∧
    ((∀ e, r ≠ .error (.transportFailure e)) → i = .init → j.phase = .active) ∧
    ((∀ e, r ≠ .error (.transportFailure e)) → i ≠ .init → j.phase = inst.phase)

/-- 43_display_buffer.md R157 for the buffer commands, 42_chain_topology.md R132 for the count, 92_eei_decisions.md D6, D36 for the
font and scroll commands: they behave the same in both phases; of the buffer commands only `FLUSH` is gated. -/
def Obligations.UngatedCommandsDoNotReadThePhase : Prop :=
  (∀ (i : Instr) (s : State) (p : Phase), i.emits = false → (∀ n mode, i ≠ .new n mode) →
    exec i (s.setPhase p) = mapNext (fun t => t.setPhase p) (exec i s)) ∧
  ∀ (s : State) (inst : Inst), s.inst = some inst → inst.phase = .uninitialized →
    exec .flush s = .next (s.answer (.error .notInitialized))

/-- 41_register_protocol.md R112: in `Uninitialized` no command but `INIT` sends any slot with a register other than `Digit(0)` to
`Digit(7)`; so no command can write Shutdown before `INIT` has run. -/
def Obligations.BeforeInitOnlyDigitRegistersAreWritten : Prop :=
  ∀ (i : Instr) (s t : State) (inst : Inst) (events : List Event), s.inst = some inst → inst.phase = .uninitialized →
    i ≠ .init → exec i s = .next t → t.transcript = s.transcript ++ events →
    ∀ f res d b, Event.transfer f res ∈ events → d < inst.n → f[2 * d]? = some b → 1 ≤ b.toNat ∧ b.toNat ≤ 8

/-- 70_reset_and_hazards.md R252: after a successful `INIT` every device has been sent the five values of 41_register_protocol.md
R110, and what is known of its Digit registers is unchanged. What a frame tells of a register is the observer's assumption
(log 15). -/
def Obligations.InitSetsFiveRegistersAndNoDigit : Prop :=
  ∀ (s t : State) (inst : Inst), s.inst = some inst → exec .init s = .next t → t.responses = s.responses ++ [.ok []] →
    ∀ d, d < inst.n →
      chainReg d 0x0F#8 t.transcript = some 0x00#8 ∧ chainReg d 0x09#8 t.transcript = some 0x00#8 ∧
      chainReg d 0x0B#8 t.transcript = some (BitVec.ofNat 8 (rows s.cfg inst.mode - 1)) ∧
      chainReg d 0x0A#8 t.transcript = some (BitVec.ofNat 8 s.cfg.defaultIntensity.val) ∧
      chainReg d 0x0C#8 t.transcript = some 0x01#8 ∧
      ∀ r, r < 8 → chainReg d (BitVec.ofNat 8 (r + 1)) t.transcript = chainReg d (BitVec.ofNat 8 (r + 1)) s.transcript

/-- 70_reset_and_hazards.md R265: after a `FLUSH` that returns Ok, device d's register `Digit(r)` holds `buf[d][r]`, for every
device and every row in use. That a chip stores what its slot holds, and that slot d reaches device d, are the assumptions of the
observer (log 15). -/
def Obligations.AfterFlushTheChainAgreesWithTheBuffer : Prop :=
  ∀ (s t : State) (inst : Inst), s.inst = some inst → exec .flush s = .next t → t.responses = s.responses ++ [.ok []] →
    ∀ d r, d < inst.n → r < rows s.cfg inst.mode →
      chainReg d (BitVec.ofNat 8 (r + 1)) t.transcript = some (inst.byteAt d r)

/-- 70_reset_and_hazards.md R251: `INIT`, `PCLEAR` and `SCROLL_STOP` (which digit mode does not admit) with a host that answers Ok give
phase `Active`, a zero buffer and no scroll, and keep N and the mode. -/
def Obligations.WarmResetGivesAnActiveClearedBlock : Prop :=
  ∀ (s : State) (inst : Inst), s.inst = some inst → s.HostOk 13 →
    ∃ (t : State) (j : Inst),
      runCommands ([.init, .pclear] ++ (if inst.mode = .matrix then [.scrollStop] else [])) s = .next t ∧
      t.inst = some j ∧ j.phase = .active ∧ (∀ d r, j.byteAt d r = 0x00#8) ∧ j.n = inst.n ∧ j.mode = inst.mode ∧
      (inst.mode = .matrix → j.scroll = none)
end

