-- ==== Sys2Proof/Laws/State.lean ====
section
/-! SUPPORT. One lemma per field per named update of the state, and how the updates combine. -/

namespace Sys2Proof.Machine

@[simp] theorem State.setInst_cfg (s : State) (inst : Inst) : (s.setInst inst).cfg = s.cfg := rfl
@[simp] theorem State.setInst_inst (s : State) (inst : Inst) : (s.setInst inst).inst = some inst := rfl
@[simp] theorem State.setInst_transcript (s : State) (inst : Inst) : (s.setInst inst).transcript = s.transcript := rfl
@[simp] theorem State.setInst_responses (s : State) (inst : Inst) : (s.setInst inst).responses = s.responses := rfl
@[simp] theorem State.setInst_inbox (s : State) (inst : Inst) : (s.setInst inst).inbox = s.inbox := rfl
@[simp] theorem State.setInst_hostResults (s : State) (inst : Inst) : (s.setInst inst).hostResults = s.hostResults := rfl
@[simp] theorem State.setInst_transfers (s : State) (inst : Inst) : (s.setInst inst).transfers = s.transfers := rfl

@[simp] theorem State.setPhase_cfg (s : State) (p : Phase) : (s.setPhase p).cfg = s.cfg := rfl
@[simp] theorem State.setPhase_inst (s : State) (p : Phase) : (s.setPhase p).inst = s.inst.map fun inst => { inst with phase := p } := rfl
@[simp] theorem State.setPhase_transcript (s : State) (p : Phase) : (s.setPhase p).transcript = s.transcript := rfl
@[simp] theorem State.setPhase_responses (s : State) (p : Phase) : (s.setPhase p).responses = s.responses := rfl
@[simp] theorem State.setPhase_inbox (s : State) (p : Phase) : (s.setPhase p).inbox = s.inbox := rfl
@[simp] theorem State.setPhase_hostResults (s : State) (p : Phase) : (s.setPhase p).hostResults = s.hostResults := rfl
@[simp] theorem State.setPhase_transfers (s : State) (p : Phase) : (s.setPhase p).transfers = s.transfers := rfl

@[simp] theorem State.answer_cfg (s : State) (r : Response) : (s.answer r).cfg = s.cfg := rfl
@[simp] theorem State.answer_inst (s : State) (r : Response) : (s.answer r).inst = s.inst := rfl
@[simp] theorem State.answer_transcript (s : State) (r : Response) : (s.answer r).transcript = s.transcript := rfl
@[simp] theorem State.answer_responses (s : State) (r : Response) : (s.answer r).responses = s.responses ++ [r] := rfl
@[simp] theorem State.answer_inbox (s : State) (r : Response) : (s.answer r).inbox = s.inbox := rfl
@[simp] theorem State.answer_hostResults (s : State) (r : Response) : (s.answer r).hostResults = s.hostResults := rfl
@[simp] theorem State.answer_transfers (s : State) (r : Response) : (s.answer r).transfers = s.transfers := rfl

@[simp] theorem State.transact_cfg (s : State) (f : Frame) : (s.transact f).cfg = s.cfg := rfl
@[simp] theorem State.transact_inst (s : State) (f : Frame) : (s.transact f).inst = s.inst := rfl
@[simp] theorem State.transact_transcript (s : State) (f : Frame) : (s.transact f).transcript = s.transcript ++ transaction f s.nextResult := rfl
@[simp] theorem State.transact_responses (s : State) (f : Frame) : (s.transact f).responses = s.responses := rfl
@[simp] theorem State.transact_inbox (s : State) (f : Frame) : (s.transact f).inbox = s.inbox := rfl
@[simp] theorem State.transact_hostResults (s : State) (f : Frame) : (s.transact f).hostResults = s.hostResults.tail := rfl
@[simp] theorem State.transact_transfers (s : State) (f : Frame) : (s.transact f).transfers = s.transfers + 1 := rfl

@[simp] theorem State.sent_cfg (s : State) (fs : List Frame) : (s.sent fs).cfg = s.cfg := rfl
@[simp] theorem State.sent_inst (s : State) (fs : List Frame) : (s.sent fs).inst = s.inst := rfl
@[simp] theorem State.sent_transcript (s : State) (fs : List Frame) : (s.sent fs).transcript = s.transcript ++ s.eventsOf fs := rfl
@[simp] theorem State.sent_responses (s : State) (fs : List Frame) : (s.sent fs).responses = s.responses := rfl
@[simp] theorem State.sent_inbox (s : State) (fs : List Frame) : (s.sent fs).inbox = s.inbox := rfl
@[simp] theorem State.sent_hostResults (s : State) (fs : List Frame) : (s.sent fs).hostResults = s.hostResults.drop fs.length := rfl
@[simp] theorem State.sent_transfers (s : State) (fs : List Frame) : (s.sent fs).transfers = s.transfers + fs.length := rfl

@[simp] theorem Inst.clearBuf_n (inst : Inst) : inst.clearBuf.n = inst.n := rfl
@[simp] theorem Inst.clearBuf_mode (inst : Inst) : inst.clearBuf.mode = inst.mode := rfl
@[simp] theorem Inst.clearBuf_phase (inst : Inst) : inst.clearBuf.phase = inst.phase := rfl
@[simp] theorem Inst.clearBuf_buf (inst : Inst) : inst.clearBuf.buf = [] := rfl
@[simp] theorem Inst.clearBuf_scroll (inst : Inst) : inst.clearBuf.scroll = inst.scroll := rfl

@[simp] theorem Inst.fresh_n (n : Nat) (mode : Mode) : (Inst.fresh n mode).n = n := rfl
@[simp] theorem Inst.fresh_mode (n : Nat) (mode : Mode) : (Inst.fresh n mode).mode = mode := rfl
@[simp] theorem Inst.fresh_phase (n : Nat) (mode : Mode) : (Inst.fresh n mode).phase = .uninitialized := rfl
@[simp] theorem Inst.fresh_buf (n : Nat) (mode : Mode) : (Inst.fresh n mode).buf = [] := rfl
@[simp] theorem Inst.fresh_scroll (n : Nat) (mode : Mode) : (Inst.fresh n mode).scroll = none := rfl

@[simp] theorem State.reset_cfg : State.reset.cfg = Config.actual := rfl
@[simp] theorem State.reset_inst : State.reset.inst = none := rfl
@[simp] theorem State.reset_transcript : State.reset.transcript = [] := rfl
@[simp] theorem State.reset_responses : State.reset.responses = [] := rfl
@[simp] theorem State.reset_inbox : State.reset.inbox = [] := rfl
@[simp] theorem State.reset_hostResults : State.reset.hostResults = [] := rfl
@[simp] theorem State.reset_transfers : State.reset.transfers = 0 := rfl

theorem State.setPhase_eq_setInst {s : State} {inst : Inst} (h : s.inst = some inst) (p : Phase) :
    s.setPhase p = s.setInst { inst with phase := p } := by
  simp [State.setPhase, State.setInst, h]

@[simp] theorem State.setInst_setInst (s : State) (i j : Inst) : (s.setInst i).setInst j = s.setInst j := rfl

theorem State.setInst_self {s : State} {inst : Inst} (h : s.inst = some inst) : s.setInst inst = s := by
  cases s; simp_all [State.setInst]

/-- The end of a command that answers a result. -/
@[simp] theorem respond_eq (bytes : List Byte) (s : State) : respond bytes s = .next (s.answer (.ok bytes)) := rfl

/-- The end of a command that raises an error: only the response is added (00_scope.md R10). -/
@[simp] theorem raise_eq (k : ErrorKind) (s : State) : raise k s = .next (s.answer (.error k)) := rfl

@[simp] theorem withInst_some {s : State} {inst : Inst} (h : s.inst = some inst) (k : Inst → Outcome) :
    withInst s k = k inst := by
  simp [withInst, h]

@[simp] theorem withInst_none {s : State} (h : s.inst = none) (k : Inst → Outcome) :
    withInst s k = .refused .unconstructed := by
  simp [withInst, h]

theorem inMode_some {s : State} {inst : Inst} (h : s.inst = some inst) {m : Mode} (hm : inst.mode = m) (k : Inst → Outcome) :
    inMode m s k = k inst := by
  simp [inMode, withInst_some h, hm]

theorem inMode_wrong {s : State} {inst : Inst} (h : s.inst = some inst) {m : Mode} (hm : inst.mode ≠ m) (k : Inst → Outcome) :
    inMode m s k = .refused (.wrongMode inst.mode) := by
  simp [inMode, withInst_some h, hm]

theorem inMode_none {s : State} (h : s.inst = none) (m : Mode) (k : Inst → Outcome) :
    inMode m s k = .refused .unconstructed := by
  simp [inMode, h]

/-- What a command behind `withInst` that goes on has found: an instance. -/
theorem withInst_next {s t : State} {k : Inst → Outcome} (h : withInst s k = .next t) :
    ∃ inst, s.inst = some inst ∧ k inst = .next t := by
  unfold withInst at h
  split at h
  · cases h
  · exact ⟨_, ‹_›, h⟩

/-- What a command behind `inMode` that goes on has found: an instance in that mode. -/
theorem inMode_next {s t : State} {m : Mode} {k : Inst → Outcome} (h : inMode m s k = .next t) :
    ∃ inst, s.inst = some inst ∧ inst.mode = m ∧ k inst = .next t := by
  obtain ⟨inst, hi, h⟩ := withInst_next h
  split at h
  · exact ⟨inst, hi, ‹_›, h⟩
  · cases h

/-- What a command behind `withScroll` that goes on has found: a scroll. -/
theorem withScroll_next {inst : Inst} {t : State} {k : ScrollState → Outcome} (h : withScroll inst k = .next t) :
    ∃ st, inst.scroll = some st ∧ k st = .next t := by
  unfold withScroll at h
  split at h
  · cases h
  · exact ⟨_, ‹_›, h⟩

/-- `requireActive` goes on in `Active` and answers `NotInitialized` in `Uninitialized` (41_register_protocol.md R104). -/
theorem requireActive_next {inst : Inst} {s t : State} {k : Outcome} (h : requireActive inst s k = .next t) :
    (inst.phase = .active ∧ k = .next t) ∨ (inst.phase = .uninitialized ∧ t = s.answer (.error .notInitialized)) := by
  unfold requireActive at h
  split at h
  · right; simp only [raise_eq, Host.Outcome.next.injEq] at h; exact ⟨‹_›, h.symm⟩
  · exact .inl ⟨‹_›, h⟩

/-- An access goes on with the value it gives. -/
theorem access_next {α : Type} {x : Except Fault α} {t : State} {k : α → Outcome} (h : access x k = .next t) :
    ∃ v, x = .ok v ∧ k v = .next t := by
  unfold access at h
  split at h
  · exact ⟨_, rfl, h⟩
  · cases h

@[simp] theorem access_ok {α : Type} (v : α) (k : α → Outcome) : access (.ok v) k = k v := rfl

end Sys2Proof.Machine
end

