-- ==== Sys2Proof/Laws/Emit.lean ====
section
/-! SUPPORT. `Emit` of a list of frames: what it leaves when the host answers Ok to all of them and when it fails one (00_scope.md
R11, 60_exceptions.md R229), and the frames themselves (30_encoding.md R70, R75). -/

namespace Sys2Proof.Machine

theorem State.nextResult_eq (s : State) : s.nextResult = s.resultAt 0 := by
  unfold State.nextResult State.resultAt
  cases s.hostResults <;> rfl

@[simp] theorem State.resultAt_transact (s : State) (f : Frame) (j : Nat) : (s.transact f).resultAt j = s.resultAt (j + 1) := by
  unfold State.resultAt
  simp only [State.transact_hostResults, State.transact_transfers]
  cases s.hostResults <;> simp [Nat.add_comm, Nat.add_left_comm]

@[simp] theorem State.resultAt_setInst (s : State) (i : Inst) (j : Nat) : (s.setInst i).resultAt j = s.resultAt j := rfl

@[simp] theorem State.resultAt_setPhase (s : State) (p : Phase) (j : Nat) : (s.setPhase p).resultAt j = s.resultAt j := rfl

@[simp] theorem State.resultAt_answer (s : State) (r : Response) (j : Nat) : (s.answer r).resultAt j = s.resultAt j := rfl

@[simp] theorem State.resultAt_sent (s : State) (fs : List Frame) (j : Nat) :
    (s.sent fs).resultAt j = s.resultAt (fs.length + j) := by
  unfold State.resultAt
  simp [Nat.add_assoc]

@[simp] theorem State.eventsOf_nil (s : State) : s.eventsOf [] = [] := rfl

theorem State.eventsOf_cons (s : State) (f : Frame) (fs : List Frame) :
    s.eventsOf (f :: fs) = transaction f s.nextResult ++ (s.transact f).eventsOf fs := by
  unfold State.eventsOf
  rw [List.zipIdx_cons, List.flatMap_cons, State.nextResult_eq]
  simp only [List.zipIdx_succ, List.flatMap_map, State.resultAt_transact, transaction]

@[simp] theorem State.sent_nil (s : State) : s.sent [] = s := by cases s; simp [State.sent]

theorem State.sent_cons (s : State) (f : Frame) (fs : List Frame) : s.sent (f :: fs) = (s.transact f).sent fs := by
  cases s; simp [State.sent, State.eventsOf_cons, State.transact, Nat.add_assoc, Nat.add_comm 1]

theorem State.hostOk_cons {s : State} {f : Frame} {k : Nat} : s.HostOk (k + 1) ↔ s.nextResult = .ok ∧ (s.transact f).HostOk k := by
  constructor
  · intro h
    exact ⟨by rw [State.nextResult_eq]; exact h 0 (by omega), fun j hj => by simpa using h (j + 1) (by omega)⟩
  · rintro ⟨h0, h⟩ j hj
    cases j with
    | zero => rwa [← State.nextResult_eq]
    | succ j => simpa using h j (by omega)

/-- The host answers Ok to every transfer: every frame is sent, nothing else changes. -/
theorem emitAll_ok {s : State} {fs : List Frame} (h : s.HostOk fs.length) : emitAll fs s = (s.sent fs, none) := by
  induction fs generalizing s with
  | nil => simp [emitAll]
  | cons f fs ih =>
    obtain ⟨h0, h1⟩ := State.hostOk_cons (f := f).1 h
    simp only [emitAll, h0, State.sent_cons]
    exact ih h1

/-- The host fails transfer `k`: the frames up to it are sent, and the phase is `Uninitialized`. -/
theorem emitAll_err {s : State} {fs : List Frame} {k : Nat} {e : HostError} (hk : k < fs.length) (h : s.HostFailsAt k e) :
    emitAll fs s = ((s.sent (fs.take (k + 1))).setPhase .uninitialized, some e) := by
  induction fs generalizing s k with
  | nil => simp at hk
  | cons f fs ih =>
    cases k with
    | zero =>
      have h0 : s.nextResult = .err e := by rw [State.nextResult_eq]; exact h.2
      simp [emitAll, h0, State.sent_cons]
    | succ k =>
      obtain ⟨h0, h1⟩ := State.hostOk_cons (f := f).1 h.1
      simp only [emitAll, h0, List.take_succ_cons, State.sent_cons]
      exact ih (by simpa using hk) ⟨h1, by simpa using h.2⟩

/-- One of the two cases holds. -/
theorem hostOk_or_failsAt (s : State) (k : Nat) : s.HostOk k ∨ ∃ j e, j < k ∧ s.HostFailsAt j e := by
  induction k with
  | zero => exact .inl fun j hj => absurd hj (Nat.not_lt_zero j)
  | succ k ih =>
    rcases ih with h | ⟨j, e, hj, h⟩
    · cases hr : s.resultAt k with
      | ok =>
        exact .inl fun j hj => by
          rcases Nat.lt_succ_iff_lt_or_eq.1 hj with h' | rfl
          · exact h j h'
          · exact hr
      | err e => exact .inr ⟨k, e, by omega, h, hr⟩
    · exact .inr ⟨j, e, by omega, h⟩

/-- `emitThen` in the terms of the statements. -/
theorem emitThen_emits (s : State) (fs : List Frame) (done : State → State) :
    Emits s fs done (emitThen fs s fun s' => .next (done s')) := by
  constructor
  · intro h; simp [emitThen, emitAll_ok h]
  · intro k e hk h; simp [emitThen, emitAll_err hk h]

/-- What a command that emits frames and goes on can end in. -/
theorem emitThen_next {s t : State} {fs : List Frame} {k : State → Outcome} (h : emitThen fs s k = .next t) :
    (s.HostOk fs.length ∧ k (s.sent fs) = .next t) ∨
    (∃ j e, j < fs.length ∧ s.HostFailsAt j e ∧
      t = ((s.sent (fs.take (j + 1))).setPhase .uninitialized).answer (.error (.transportFailure e))) := by
  rcases hostOk_or_failsAt s fs.length with hok | ⟨j, e, hj, hf⟩
  · left; exact ⟨hok, by simpa [emitThen, emitAll_ok hok] using h⟩
  · right; exact ⟨j, e, hj, hf, by simpa [emitThen, emitAll_err hj hf, eq_comm] using h⟩

/-- A frame built by `mkFrame` has one slot per pair, in order (30_encoding.md R70, R75). -/
theorem isFrame_mkFrame {n : Nat} {pairs : List (Register × Byte)} (hn : pairs.length = n) {slot : Nat → Byte × Byte}
    (h : ∀ i, (hi : i < pairs.length) → slot i = (regCode pairs[i].1, pairs[i].2)) : IsFrame n (mkFrame pairs) slot := by
  subst hn
  induction pairs generalizing slot with
  | nil => exact ⟨rfl, fun i hi => absurd hi (Nat.not_lt_zero i)⟩
  | cons p ps ih =>
    have := ih (slot := fun i => slot (i + 1)) fun i hi => h (i + 1) (Nat.succ_lt_succ hi)
    refine ⟨by simp only [mkFrame, List.flatMap_cons, List.length_append, List.length_cons, List.length_nil]
               have := this.1; simp only [mkFrame] at this; omega, fun i hi => ?_⟩
    cases i with
    | zero => simp [mkFrame, h 0 (by simp)]
    | succ i =>
      have := this.2 i (by simpa using hi)
      simp only [mkFrame] at this
      simp only [mkFrame, List.flatMap_cons, List.cons_append, List.nil_append]
      rw [show 2 * (i + 1) = 2 * i + 1 + 1 by omega]
      simpa using this

theorem isFrame_bcast (n : Nat) (reg : Register) (val : Byte) : IsFrame n (bcastFrame n reg val) fun _ => (regCode reg, val) :=
  isFrame_mkFrame (by simp) fun i hi => by simp

theorem isFrame_one (n dev : Nat) (reg : Register) (val : Byte) :
    IsFrame n (oneFrame n dev reg val) fun i => if i = dev then (regCode reg, val) else (regCode .noOp, 0x00#8) :=
  isFrame_mkFrame (by simp) fun i hi => by
    simp only [List.getElem_set]
    by_cases h : dev = i
    · simp [h]
    · simp [h, eq_comm]

theorem isFrame_all (reg : Register) (vals : List Byte) :
    IsFrame vals.length (allFrame reg vals) fun i => (regCode reg, vals.getD i 0#8) :=
  isFrame_mkFrame (by simp) fun i hi => by
    have : i < vals.length := by simpa using hi
    simp [this]

/-- A transcript of whole transactions stays one when whole transactions are added. -/
theorem framed_append {n : Nat} {xs ys : List Event} (hx : framed n xs = true) (hy : framed n ys = true) :
    framed n (xs ++ ys) = true := by
  induction xs using framed.induct with
  | case1 => simpa using hy
  | case2 f r rest ih =>
    simp only [framed, Bool.and_eq_true, List.cons_append] at hx ⊢
    exact ⟨hx.1, ih hx.2⟩
  | case3 xs h1 h2 =>
    exfalso
    revert hx
    unfold framed
    split <;> simp_all

theorem framed_eventsOf {n : Nat} (s : State) {fs : List Frame} (h : ∀ f ∈ fs, f.length = 2 * n) :
    framed n (s.eventsOf fs) = true := by
  induction fs generalizing s with
  | nil => rfl
  | cons f fs ih =>
    rw [State.eventsOf_cons]
    refine framed_append ?_ (ih _ fun g hg => h g (List.mem_cons_of_mem _ hg))
    simp [transaction, framed, h f (by simp)]

theorem length_bcastFrame (n : Nat) (reg : Register) (val : Byte) : (bcastFrame n reg val).length = 2 * n :=
  (isFrame_bcast n reg val).1

theorem length_oneFrame (n dev : Nat) (reg : Register) (val : Byte) : (oneFrame n dev reg val).length = 2 * n :=
  (isFrame_one n dev reg val).1

theorem length_allFrame (reg : Register) (vals : List Byte) : (allFrame reg vals).length = 2 * vals.length :=
  (isFrame_all reg vals).1

end Sys2Proof.Machine
end

