-- ==== Sys2Proof/Laws/Memory.lean ====
section
/-! SUPPORT. The buffer memory: read after write, the canonical form, and what the accesses of Ops.lean give. -/

namespace Sys2Proof.Machine

@[simp] theorem Memory.read_nil (a : Nat) : Memory.read [] a = 0#8 := rfl

theorem Memory.wfFrom_mono {lo lo' : Nat} {m : Memory} (h : lo ≤ lo') (hm : Memory.wfFrom lo' m = true) :
    Memory.wfFrom lo m = true := by
  cases m with
  | nil => rfl
  | cons p rest => simp only [Memory.wfFrom, Bool.and_eq_true, decide_eq_true_eq] at hm ⊢; exact ⟨⟨by omega, hm.1.2⟩, hm.2⟩

/-- Below its first address a canonical memory reads as 0x00. -/
theorem Memory.read_below {lo a : Nat} {m : Memory} (hm : Memory.wfFrom lo m = true) (h : a < lo) : Memory.read m a = 0#8 := by
  induction m generalizing lo with
  | nil => rfl
  | cons p rest ih =>
    simp only [Memory.wfFrom, Bool.and_eq_true, decide_eq_true_eq] at hm
    simp only [Memory.read]
    rw [if_neg (by omega)]
    exact ih hm.2 (by omega)

/-- A byte read after a write: the value at the address written, the old value at every other. -/
theorem Memory.read_write {lo : Nat} {m : Memory} (hm : Memory.wfFrom lo m = true) (a a' : Nat) (v : Byte) :
    Memory.read (Memory.write m a v) a' = if a' = a then v else Memory.read m a' := by
  induction m generalizing lo with
  | nil =>
    simp only [Memory.write, Memory.read_nil]
    split <;> simp_all [Memory.read]
  | cons p rest ih =>
    obtain ⟨b, w⟩ := p
    simp only [Memory.wfFrom, Bool.and_eq_true, decide_eq_true_eq] at hm
    simp only [Memory.write]
    by_cases hab : a < b
    · have hr : Memory.read rest a = 0#8 := Memory.read_below hm.2 (by omega)
      by_cases hv : v = 0#8
      · subst hv; simp only [hab, if_true, Memory.read]
        by_cases h : a' = a
        · subst h; rw [if_neg (by omega), hr]; simp
        · simp [h]
      · simp only [hab, hv, if_true, if_false, Memory.read]
    · by_cases he : a = b
      · subst he
        have hr : Memory.read rest a = 0#8 := Memory.read_below hm.2 (by omega)
        by_cases hv : v = 0#8
        · subst hv; simp only [lt_self_iff_false, if_true, if_false, Memory.read]
          by_cases h : a' = a
          · subst h; simp [hr]
          · simp [h]
        · simp only [lt_self_iff_false, hv, if_true, if_false, Memory.read]
          by_cases h : a' = a <;> simp [h]
      · simp only [hab, he, if_false, Memory.read, ih hm.2]
        by_cases h : a' = b
        · subst h; rw [if_pos rfl, if_neg (by omega), if_pos rfl]
        · simp [h]

/-- Every memory write keeps the canonical form (log 11). -/
theorem Memory.wfFrom_write {lo : Nat} {m : Memory} (hm : Memory.wfFrom lo m = true) {a : Nat} (ha : lo ≤ a) (v : Byte) :
    Memory.wfFrom lo (Memory.write m a v) = true := by
  induction m generalizing lo with
  | nil =>
    simp only [Memory.write]
    split
    · rfl
    · simpa [Memory.wfFrom] using ⟨ha, ‹_›⟩
  | cons p rest ih =>
    obtain ⟨b, w⟩ := p
    have hm' := hm
    simp only [Memory.wfFrom, Bool.and_eq_true, decide_eq_true_eq] at hm
    simp only [Memory.write]
    by_cases hab : a < b
    · by_cases hv : v = 0#8
      · simpa [hab, hv] using hm'
      · simp only [hab, hv, if_true, if_false, Memory.wfFrom, Bool.and_eq_true, decide_eq_true_eq]
        exact ⟨⟨ha, hv⟩, ⟨⟨by omega, hm.1.2⟩, hm.2⟩⟩
    · by_cases he : a = b
      · subst he
        by_cases hv : v = 0#8
        · simpa [hv] using Memory.wfFrom_mono (by omega) hm.2
        · simp only [lt_self_iff_false, hv, if_true, if_false, Memory.wfFrom, Bool.and_eq_true, decide_eq_true_eq]
          exact ⟨⟨ha, hv⟩, hm.2⟩
      · simp only [hab, he, if_false, Memory.wfFrom, Bool.and_eq_true, decide_eq_true_eq]
        exact ⟨hm.1, ih hm.2 (by omega)⟩

theorem Memory.wf_write {m : Memory} (hm : Memory.wf m = true) (a : Nat) (v : Byte) : Memory.wf (Memory.write m a v) = true :=
  Memory.wfFrom_write hm (Nat.zero_le a) v

@[simp] theorem Memory.wf_nil : Memory.wf [] = true := rfl

/-- Where a write can leave an entry: at the address written, or where one was. -/
theorem Memory.mem_write {m : Memory} {a : Nat} {v : Byte} {cell : Host.Cell} (h : cell ∈ Memory.write m a v) :
    cell.1 = a ∨ cell ∈ m := by
  induction m with
  | nil =>
    simp only [Memory.write] at h
    split at h
    · cases h
    · simp at h; exact .inl (by simp [h])
  | cons p rest ih =>
    obtain ⟨b, w⟩ := p
    simp only [Memory.write] at h
    split at h
    · split at h
      · exact .inr h
      · rcases List.mem_cons.1 h with h | h
        · exact .inl (by simp [h])
        · exact .inr h
    · split at h
      · split at h
        · exact .inr (List.mem_cons_of_mem _ h)
        · rcases List.mem_cons.1 h with h | h
          · exact .inl (by simp [h])
          · exact .inr (List.mem_cons_of_mem _ h)
      · rcases List.mem_cons.1 h with h | h
        · exact .inr (by simp [h])
        · rcases ih h with h | h
          · exact .inl h
          · exact .inr (List.mem_cons_of_mem _ h)

/-- A byte that is not 0x00 has an entry. -/
theorem Memory.mem_of_read {m : Memory} {a : Nat} (h : Memory.read m a ≠ 0#8) : (a, Memory.read m a) ∈ m := by
  induction m with
  | nil => exact absurd rfl h
  | cons p rest ih =>
    obtain ⟨b, w⟩ := p
    simp only [Memory.read] at h ⊢
    split
    · subst_vars; simp
    · rw [if_neg ‹_›] at h; exact List.mem_cons_of_mem _ (ih h)

/-- Canonical memories that read alike are the same list (log 11). -/
theorem Memory.wfFrom_ext {lo : Nat} {m m' : Memory} (h : Memory.wfFrom lo m = true) (h' : Memory.wfFrom lo m' = true)
    (heq : ∀ a, Memory.read m a = Memory.read m' a) : m = m' := by
  induction m generalizing lo m' with
  | nil =>
    cases m' with
    | nil => rfl
    | cons p rest =>
      obtain ⟨b, w⟩ := p
      simp only [Memory.wfFrom, Bool.and_eq_true, decide_eq_true_eq] at h'
      have := heq b
      simp [Memory.read] at this
      exact absurd this.symm h'.1.2
  | cons p rest ih =>
    obtain ⟨b, w⟩ := p
    cases m' with
    | nil =>
      simp only [Memory.wfFrom, Bool.and_eq_true, decide_eq_true_eq] at h
      have := heq b
      simp [Memory.read] at this
      exact absurd this h.1.2
    | cons p' rest' =>
      obtain ⟨b', w'⟩ := p'
      simp only [Memory.wfFrom, Bool.and_eq_true, decide_eq_true_eq] at h h'
      have hb : b = b' := by
        rcases Nat.lt_trichotomy b b' with hlt | he | hgt
        · have e := heq b
          simp only [Memory.read, if_true] at e
          rw [if_neg (by omega), Memory.read_below h'.2 (by omega)] at e
          exact absurd e h.1.2
        · exact he
        · have e := heq b'
          simp only [Memory.read, if_true] at e
          rw [if_neg (by omega), Memory.read_below h.2 (by omega)] at e
          exact absurd e.symm h'.1.2
      subst hb
      have hw : w = w' := by simpa [Memory.read] using heq b
      subst hw
      congr 1
      refine ih h.2 h'.2 fun a => ?_
      have e := heq a
      simp only [Memory.read] at e
      split at e
      · subst_vars
        rw [Memory.read_below h.2 (by omega), Memory.read_below h'.2 (by omega)]
      · exact e

theorem Memory.wf_ext {m m' : Memory} (h : Memory.wf m = true) (h' : Memory.wf m' = true)
    (heq : ∀ a, Memory.read m a = Memory.read m' a) : m = m' := Memory.wfFrom_ext h h' heq

/-- An access inside the buffer gives the byte (20_memory.md R51). -/
theorem memRead_ok {inst : Inst} {a : Nat} (h : a < 8 * inst.n) : memRead inst a = .ok (Memory.read inst.buf a) := by
  simp [memRead, h]

theorem memWrite_ok {inst : Inst} {a : Nat} (h : a < 8 * inst.n) (v : Byte) :
    memWrite inst a v = .ok { inst with buf := Memory.write inst.buf a v } := by
  simp [memWrite, h]

/-- The buffer after a block of bytes is written. -/
def Memory.writeBlock (m : Memory) (a : Nat) : List Byte → Memory
  | [] => m
  | v :: vs => Memory.writeBlock (Memory.write m a v) (a + 1) vs

theorem memWriteBlock_ok {inst : Inst} {a : Nat} {vs : List Byte} (h : vs = [] ∨ a + vs.length ≤ 8 * inst.n) :
    memWriteBlock inst a vs = .ok { inst with buf := Memory.writeBlock inst.buf a vs } := by
  induction vs generalizing inst a with
  | nil => rfl
  | cons v vs ih =>
    simp only [reduceCtorEq, List.length_cons, false_or] at h
    simp only [memWriteBlock, memWrite_ok (show a < 8 * inst.n by omega), Memory.writeBlock]
    rw [ih (inst := { inst with buf := Memory.write inst.buf a v }) (.inr (by simp only; omega))]

theorem Memory.wf_writeBlock {m : Memory} (hm : Memory.wf m = true) (a : Nat) (vs : List Byte) :
    Memory.wf (Memory.writeBlock m a vs) = true := by
  induction vs generalizing m a with
  | nil => exact hm
  | cons v vs ih => exact ih (Memory.wf_write hm a v) (a + 1)

/-- A byte read after a block write: the block's byte inside the block, the old byte outside it. -/
theorem Memory.read_writeBlock {m : Memory} (hm : Memory.wf m = true) (a a' : Nat) (vs : List Byte) :
    Memory.read (Memory.writeBlock m a vs) a' =
      if a ≤ a' ∧ a' < a + vs.length then vs.getD (a' - a) 0#8 else Memory.read m a' := by
  induction vs generalizing m a with
  | nil => simp only [Memory.writeBlock, List.length_nil]; rw [if_neg (by omega)]
  | cons v vs ih =>
    simp only [Memory.writeBlock, ih (Memory.wf_write hm a v), List.length_cons, Memory.read_write hm]
    by_cases h1 : a' = a
    · subst h1; rw [if_neg (by omega), if_pos (by omega)]; simp
    · by_cases h2 : a + 1 ≤ a' ∧ a' < a + 1 + vs.length
      · rw [if_pos h2, if_pos (by omega), show a' - a = (a' - (a + 1)) + 1 by omega]; simp
      · rw [if_neg h2, if_neg h1, if_neg (by omega)]

/-- Where a block write can leave an entry: inside the block, or where one was. -/
theorem Memory.mem_writeBlock {m : Memory} {a : Nat} {vs : List Byte} {cell : Host.Cell}
    (h : cell ∈ Memory.writeBlock m a vs) : (a ≤ cell.1 ∧ cell.1 < a + vs.length) ∨ cell ∈ m := by
  induction vs generalizing m a with
  | nil => exact .inr h
  | cons v vs ih =>
    simp only [List.length_cons]
    rcases ih h with h | h
    · exact .inl (by omega)
    · rcases Memory.mem_write h with h | h
      · exact .inl (by omega)
      · exact .inr h

end Sys2Proof.Machine
end

