-- ==== Sys2Proof/Laws/Buffer.lean ====
section
/-! SUPPORT. The block accesses to the buffer: the frames of a flush (43_display_buffer.md R150) and the window of a scroll step
(45_scroll_engine.md R201). None of them leaves the buffer (20_memory.md R51). -/

namespace Sys2Proof.Machine

theorem bufAddr_lt {d r n : Nat} (hd : d < n) (hr : r < 8) : bufAddr d r < 8 * n := by unfold bufAddr; omega

theorem rows_le (c : Config) (m : Mode) : rows c m ≤ 8 := by
  cases m
  · exact Nat.le_refl 8
  · have := c.digitCountLess1.isLt; simp only [rows, Config.digitCount]; omega

theorem rows_pos (c : Config) (m : Mode) : 1 ≤ rows c m := by
  cases m <;> simp [rows, Config.digitCount]

theorem readRow_ok {inst : Inst} {r : Nat} (hr : r < 8) {d k : Nat} (h : d + k ≤ inst.n) :
    readRow inst r d k = .ok ((List.range' d k).map fun d => inst.byteAt d r) := by
  induction k generalizing d with
  | zero => rfl
  | succ k ih =>
    simp only [readRow, memRead_ok (bufAddr_lt (show d < inst.n by omega) hr), ih (show d + 1 + k ≤ inst.n by omega),
      List.range'_succ, List.map_cons, Inst.byteAt]

/-- The frame of row `r`: `Digit(r)` with the row's byte of every device (43_display_buffer.md R150). -/
def rowFrame (inst : Inst) (r : Nat) : Frame := allFrame (digitReg r) ((List.range' 0 inst.n).map fun d => inst.byteAt d r)

theorem readFrames_ok {inst : Inst} {r k : Nat} (h : r + k ≤ 8) :
    readFrames inst r k = .ok ((List.range' r k).map (rowFrame inst)) := by
  induction k generalizing r with
  | zero => rfl
  | succ k ih =>
    simp only [readFrames, readRow_ok (show r < 8 by omega) (show 0 + inst.n ≤ inst.n by omega),
      ih (show r + 1 + k ≤ 8 by omega), List.range'_succ, List.map_cons, rowFrame]

theorem regCode_digitReg {r : Nat} (h : r < 8) : regCode (digitReg r) = BitVec.ofNat 8 (r + 1) := by
  simp [digitReg, regCode, Fin.ofNat, Nat.mod_eq_of_lt h]

theorem isFrame_rowFrame (inst : Inst) {r : Nat} (h : r < 8) :
    IsFrame inst.n (rowFrame inst r) fun d => (BitVec.ofNat 8 (r + 1), inst.byteAt d r) := by
  have := isFrame_all (digitReg r) ((List.range' 0 inst.n).map fun d => inst.byteAt d r)
  rw [List.length_map, List.length_range'] at this
  refine ⟨this.1, fun i hi => ?_⟩
  have := this.2 i hi
  simpa [regCode_digitReg h, hi, rowFrame] using this

/-- The window of a scroll step is written inside the buffer: row `r` of each of the devices gets the window's row, every other byte
keeps its value. -/
theorem writeWindow_ok (c : Config) (st : ScrollState) {d k : Nat} {inst : Inst} (h : d + k ≤ inst.n) :
    ∃ m, writeWindow c st d k inst = .ok { inst with buf := m } ∧
      (Memory.wf inst.buf = true → Memory.wf m = true ∧
        ∀ a, Memory.read m a =
          if 8 * d ≤ a ∧ a < 8 * (d + k) then winRow c st st.offset (a / 8) (a % 8) else Memory.read inst.buf a) ∧
      ∀ cell ∈ m, (8 * d ≤ cell.1 ∧ cell.1 < 8 * (d + k)) ∨ cell ∈ inst.buf := by
  induction k generalizing d inst with
  | zero =>
    refine ⟨inst.buf, rfl, fun hw => ⟨hw, fun a => ?_⟩, fun cell hc => .inr hc⟩
    rw [if_neg (by omega)]
  | succ k ih =>
    have hlen : (windowRows c st d).length = 8 := by simp [windowRows]
    have hb : memWriteBlock inst (bufAddr d 0) (windowRows c st d) = _ :=
      memWriteBlock_ok (.inr (by rw [hlen]; unfold bufAddr; omega))
    obtain ⟨m, hm, hread, hmem⟩ :=
      ih (d := d + 1) (inst := { inst with buf := Memory.writeBlock inst.buf (bufAddr d 0) (windowRows c st d) })
        (by simp only; omega)
    refine ⟨m, by simp only [writeWindow, hb, hm], fun hw => ?_, fun cell hc => ?_⟩
    · obtain ⟨hw', hr'⟩ := hread (Memory.wf_writeBlock hw _ _)
      refine ⟨hw', fun a => ?_⟩
      rw [hr', Memory.read_writeBlock hw, hlen]
      unfold bufAddr
      by_cases h1 : 8 * (d + 1) ≤ a ∧ a < 8 * (d + 1 + k)
      · rw [if_pos h1, if_pos (by omega)]
      · rw [if_neg h1]
        by_cases h2 : 8 * d + 0 ≤ a ∧ a < 8 * d + 0 + 8
        · rw [if_pos h2, if_pos (by omega), show a / 8 = d by omega, show a % 8 = a - (8 * d + 0) by omega]
          simp [windowRows, show a - 8 * d < 8 by omega]
        · rw [if_neg h2, if_neg (by omega)]
    · rcases hmem cell hc with h1 | h1
      · exact .inl (by omega)
      · rcases Memory.mem_writeBlock h1 with h2 | h2
        · rw [hlen] at h2; unfold bufAddr at h2; exact .inl (by omega)
        · exact .inr h2

end Sys2Proof.Machine
end

