-- ==== Sys2Proof/Laws/Codec.lean ====
section
/-! SUPPORT. The encoding tables read forwards and backwards (30_encoding.md R72, R81-R84). -/

namespace Sys2Proof

@[simp] theorem regOf_regCode (r : Register) : regOf (regCode r) = .ok r := by
  cases r with
  | digit r => revert r; decide
  | _ => rfl

theorem regCode_of_regOf {b : Byte} {r : Register} (h : regOf b = .ok r) : regCode r = b := by
  have key : ∀ b : Byte, (match regOf b with | .ok r => decide (regCode r = b) | .error _ => true) = true := by decide
  simpa [h] using key b

@[simp] theorem modeOf_modeCode (m : Mode) : modeOf (modeCode m) = .ok m := by cases m <;> rfl

theorem modeCode_of_modeOf {b : Byte} {m : Mode} (h : modeOf b = .ok m) : modeCode m = b := by
  have key : ∀ b : Byte, (match modeOf b with | .ok m => decide (modeCode m = b) | .error _ => true) = true := by decide
  simpa [h] using key b

@[simp] theorem tmodeOf_tmodeCode (t : TMode) : tmodeOf (tmodeCode t) = .ok t := by cases t <;> rfl

theorem tmodeCode_of_tmodeOf {b : Byte} {t : TMode} (h : tmodeOf b = .ok t) : tmodeCode t = b := by
  have key : ∀ b : Byte, (match tmodeOf b with | .ok t => decide (tmodeCode t = b) | .error _ => true) = true := by decide
  simpa [h] using key b

@[simp] theorem flagOf_flagByte (b : Bool) : flagOf (flagByte b) = .ok b := by cases b <;> rfl

theorem flagByte_of_flagOf {b : Byte} {f : Bool} (h : flagOf b = .ok f) : flagByte f = b := by
  have key : ∀ b : Byte, (match flagOf b with | .ok f => decide (flagByte f = b) | .error _ => true) = true := by decide
  simpa [h] using key b

/-! The decoder, tag by tag (30_encoding.md R82). -/

@[simp] theorem decode_tag_01 (ops : List Byte) : decode (0x01#8 :: ops) = decodeNew ops := rfl
@[simp] theorem decode_tag_02 (ops : List Byte) : decode (0x02#8 :: ops) = decodePlain .deviceCount ops := rfl
@[simp] theorem decode_tag_10 (ops : List Byte) : decode (0x10#8 :: ops) = decodeWriteOne ops := rfl
@[simp] theorem decode_tag_11 (ops : List Byte) : decode (0x11#8 :: ops) = decodeWriteBcast ops := rfl
@[simp] theorem decode_tag_12 (ops : List Byte) : decode (0x12#8 :: ops) = decodeWriteAll ops := rfl
@[simp] theorem decode_tag_13 (ops : List Byte) : decode (0x13#8 :: ops) = decodePlain .init ops := rfl
@[simp] theorem decode_tag_14 (ops : List Byte) : decode (0x14#8 :: ops) = decodePlain .pclear ops := rfl
@[simp] theorem decode_tag_20 (ops : List Byte) : decode (0x20#8 :: ops) = decodeSetPixel ops := rfl
@[simp] theorem decode_tag_21 (ops : List Byte) : decode (0x21#8 :: ops) = decodeGetPixel ops := rfl
@[simp] theorem decode_tag_22 (ops : List Byte) : decode (0x22#8 :: ops) = decodeSetDigit ops := rfl
@[simp] theorem decode_tag_23 (ops : List Byte) : decode (0x23#8 :: ops) = decodeWriteGlyph ops := rfl
@[simp] theorem decode_tag_24 (ops : List Byte) : decode (0x24#8 :: ops) = decodeGetRow ops := rfl
@[simp] theorem decode_tag_25 (ops : List Byte) : decode (0x25#8 :: ops) = decodePlain .flush ops := rfl
@[simp] theorem decode_tag_26 (ops : List Byte) : decode (0x26#8 :: ops) = decodePlain .bclear ops := rfl
@[simp] theorem decode_tag_30 (ops : List Byte) : decode (0x30#8 :: ops) = decodeGlyphFor ops := rfl
@[simp] theorem decode_tag_31 (ops : List Byte) : decode (0x31#8 :: ops) = decodeGlyphForStrict ops := rfl
@[simp] theorem decode_tag_40 (ops : List Byte) : decode (0x40#8 :: ops) = decodeScrollStart ops := rfl
@[simp] theorem decode_tag_41 (ops : List Byte) : decode (0x41#8 :: ops) = decodePlain .scrollStep ops := rfl
@[simp] theorem decode_tag_42 (ops : List Byte) : decode (0x42#8 :: ops) = decodePlain .scrollFinished ops := rfl
@[simp] theorem decode_tag_43 (ops : List Byte) : decode (0x43#8 :: ops) = decodePlain .scrollStop ops := rfl

/-- The four bytes of a 32-bit value, assembled again, are the value (30_encoding.md R83). -/
theorem assembleChar_bytes (v : BitVec 32) :
    assembleChar ((v >>> 0).setWidth 8) ((v >>> 8).setWidth 8) ((v >>> 16).setWidth 8) ((v >>> 24).setWidth 8) = v := by
  apply BitVec.eq_of_getLsbD_eq
  intro i hi
  simp only [assembleChar, BitVec.getLsbD_or, BitVec.getLsbD_shiftLeft, BitVec.getLsbD_setWidth, BitVec.getLsbD_ushiftRight]
  interval_cases i <;> simp

/-- Byte `k` of an assembled value is byte `k` (30_encoding.md R83). -/
theorem bytes_assembleChar (c0 c1 c2 c3 : Byte) :
    (assembleChar c0 c1 c2 c3 >>> 0).setWidth 8 = c0 ∧ (assembleChar c0 c1 c2 c3 >>> 8).setWidth 8 = c1 ∧
    (assembleChar c0 c1 c2 c3 >>> 16).setWidth 8 = c2 ∧ (assembleChar c0 c1 c2 c3 >>> 24).setWidth 8 = c3 := by
  refine ⟨?_, ?_, ?_, ?_⟩ <;>
  · apply BitVec.eq_of_getLsbD_eq
    intro i hi
    simp only [assembleChar, BitVec.getLsbD_or, BitVec.getLsbD_shiftLeft, BitVec.getLsbD_setWidth, BitVec.getLsbD_ushiftRight]
    interval_cases i <;> simp

theorem isScalar_iff (v : Nat) : isScalar v = true ↔ v.isValidChar := by
  simp only [isScalar, Bool.or_eq_true, Bool.and_eq_true, decide_eq_true_eq, Nat.isValidChar]
  omega

theorem toNat_ofNat_char (ch : Char) : (BitVec.ofNat 32 ch.toNat).toNat = ch.toNat := by
  have := ch.val.toNat_lt
  have : ch.toNat < 2 ^ 32 := this
  rw [BitVec.toNat_ofNat]
  exact Nat.mod_eq_of_lt (by omega)

@[simp] theorem charOf_charBytes (ch : Char) :
    charOf (charByte ch 0) (charByte ch 1) (charByte ch 2) (charByte ch 3) = .ok ch := by
  have hv : assembleChar (charByte ch 0) (charByte ch 1) (charByte ch 2) (charByte ch 3) = BitVec.ofNat 32 ch.toNat :=
    assembleChar_bytes _
  have hs : isScalar ch.toNat = true := (isScalar_iff _).2 ch.valid
  simp only [charOf, hv, toNat_ofNat_char, hs, if_true, Char.ofNat_toNat]

theorem charBytes_of_charOf {c0 c1 c2 c3 : Byte} {ch : Char} (h : charOf c0 c1 c2 c3 = .ok ch) :
    charBytes ch = [c0, c1, c2, c3] := by
  unfold charOf at h
  simp only at h
  split at h
  · rename_i hs
    injection h with h
    subst h
    obtain ⟨h0, h1, h2, h3⟩ := bytes_assembleChar c0 c1 c2 c3
    have hn : (Char.ofNat (assembleChar c0 c1 c2 c3).toNat).toNat = (assembleChar c0 c1 c2 c3).toNat := by
      rw [Char.toNat_ofNat, if_pos ((isScalar_iff _).1 hs)]
    simp only [charBytes, charByte, hn, BitVec.ofNat_toNat, BitVec.setWidth_eq, Nat.mul_zero, Nat.mul_one, Nat.reduceMul,
      h0, h1, h2, h3]
  · cases h

@[simp] theorem charsOf_flatMap (chars : List Char) : charsOf chars.length (chars.flatMap charBytes) = .ok chars := by
  induction chars with
  | nil => rfl
  | cons ch chars ih =>
    simp only [List.length_cons, List.flatMap_cons, charBytes, List.cons_append, List.nil_append, charsOf, charOf_charBytes]
    rw [ih]

theorem flatMap_of_charsOf {count : Nat} {bs : List Byte} {chars : List Char} (h : charsOf count bs = .ok chars) :
    chars.length = count ∧ chars.flatMap charBytes = bs := by
  induction count generalizing bs chars with
  | zero =>
    cases bs with
    | nil => simp only [charsOf, Except.ok.injEq] at h; subst h; simp
    | cons b bs => simp [charsOf] at h
  | succ count ih =>
    match bs, h with
    | c0 :: c1 :: c2 :: c3 :: rest, h =>
      simp only [charsOf] at h
      split at h
      · rename_i ch chars' hch hcs
        injection h with h
        subst h
        obtain ⟨hl, hf⟩ := ih hcs
        simp [List.flatMap_cons, charBytes_of_charOf hch, hl, hf]
      · cases h
      · cases h
    | [], h => simp [charsOf] at h
    | [_], h => simp [charsOf] at h
    | [_, _], h => simp [charsOf] at h
    | [_, _, _], h => simp [charsOf] at h

end Sys2Proof
end

