-- ==== Sys2Proof/Laws/PerInstr.lean ====
section
/-! SUPPORT. Laws made one per instruction. RecordLength: the record of a command has the length 30_encoding.md R84 gives. -/

namespace Sys2Proof.Laws.RecordLength

/-- The record of the command has the length of R84. -/
def Statement (i : Instr) : Prop := (encode i).length = i.recordLength

theorem length_flatMap_charBytes (chars : List Char) : (chars.flatMap charBytes).length = 4 * chars.length := by
  induction chars with
  | nil => rfl
  | cons c cs ih => simp only [List.flatMap_cons, List.length_append, ih, charBytes, List.length_cons, List.length_nil]; omega

theorem new (n : Byte) (mode : Mode) : Statement (.new n mode) := rfl

theorem deviceCount : Statement .deviceCount := rfl

theorem writeOne (dev : Byte) (reg : Register) (val : Byte) : Statement (.writeOne dev reg val) := rfl

theorem writeBcast (reg : Register) (val : Byte) : Statement (.writeBcast reg val) := rfl

theorem writeAll (reg : Register) (vals : List Byte) : Statement (.writeAll reg vals) := by
  simp only [Statement, encode, Instr.recordLength, List.length_cons]; omega

theorem init : Statement .init := rfl

theorem pclear : Statement .pclear := rfl

theorem setPixel (dev : Byte) (row : Byte) (col : Byte) (on : Bool) : Statement (.setPixel dev row col on) := rfl

theorem getPixel (dev : Byte) (row : Byte) (col : Byte) : Statement (.getPixel dev row col) := rfl

theorem setDigit (dev : Byte) (pos : Byte) (ch : Char) (dp : Bool) : Statement (.setDigit dev pos ch dp) := rfl

theorem writeGlyph (dev : Byte) (roff : Byte) (bitmap : List Byte) : Statement (.writeGlyph dev roff bitmap) := by
  simp only [Statement, encode, Instr.recordLength, List.length_cons]; omega

theorem getRow (dev : Byte) (row : Byte) : Statement (.getRow dev row) := rfl

theorem flush : Statement .flush := rfl

theorem bclear : Statement .bclear := rfl

theorem glyphFor (ch : Char) : Statement (.glyphFor ch) := rfl

theorem glyphForStrict (ch : Char) : Statement (.glyphForStrict ch) := rfl

theorem scrollStart (tmode : TMode) (chars : List Char) : Statement (.scrollStart tmode chars) := by
  simp only [Statement, encode, Instr.recordLength, List.length_cons, length_flatMap_charBytes]; omega

theorem scrollStep : Statement .scrollStep := rfl

theorem scrollFinished : Statement .scrollFinished := rfl

theorem scrollStop : Statement .scrollStop := rfl

theorem setIntensity (v : Byte) : Statement (.setIntensity v) := rfl

end Sys2Proof.Laws.RecordLength
end

