-- ==== Sys2Proof/Laws/Scroll.lean ====
section
/-! SUPPORT. The scroll engine bit by bit: columns, windows, and where the strip is read (45_scroll_engine.md R191-R196, R208). -/

namespace Sys2Proof.Machine

/-- Bit `i` of an OR of single bits, one per place: the bit put there. -/
theorem getLsbD_orOver (f : Nat → Byte) (i : Nat) :
    (orOver f).getLsbD i = ((f 0).getLsbD i || (f 1).getLsbD i || (f 2).getLsbD i || (f 3).getLsbD i ||
      (f 4).getLsbD i || (f 5).getLsbD i || (f 6).getLsbD i || (f 7).getLsbD i) := by
  simp [orOver, List.range_succ]

theorem getLsbD_bitAt (b : Byte) (k i : Nat) : (bitAt b k).getLsbD i = (decide (i = 0) && b.getLsbD k) := by
  unfold bitAt
  by_cases h : i = 0
  · subst h; simp
  · simp [h]

/-- Bit `r` of a glyph column is the glyph's pixel (45_scroll_engine.md R191). -/
theorem getLsbD_glyphCol (g : Glyph) (c : Nat) {r : Nat} (hr : r < 8) :
    (glyphCol g c).getLsbD r = (g.toList.getD r 0#8).getLsbD (7 - c) := by
  simp only [glyphCol, getLsbD_orOver, BitVec.getLsbD_shiftLeft, getLsbD_bitAt]
  interval_cases r <;> simp

/-- Bit `7 − col` of a window row is bit `r` of the window column (45_scroll_engine.md R196). -/
theorem getLsbD_winRow (c : Config) (st : ScrollState) (o d : Nat) {r col : Nat} (hcol : col < 8) :
    (winRow c st o d r).getLsbD (7 - col) = (winCol c st o (8 * d + col)).getLsbD r := by
  simp only [winRow, getLsbD_orOver, BitVec.getLsbD_shiftLeft, getLsbD_bitAt]
  interval_cases col <;> simp

/-- Every strip column read is inside the strip (45_scroll_engine.md R208). -/
theorem winIndex_lt {st : ScrollState} {o j i : Nat} (h : winIndex st o j = some i) : i < st.width := by
  unfold winIndex at h
  split at h
  · split at h
    · cases h
    · injection h with h; subst h; exact Nat.mod_lt _ (by omega)
  · split at h
    · injection h with h; omega
    · cases h
  · split at h
    · injection h with h; omega
    · cases h

/-- A column inside the strip belongs to a character of the text, or to the gap after one (45_scroll_engine.md R193). -/
theorem stripCol_char {c : Config} {chars : List Char} {j : Nat} (hj : j < stripWidth c chars) :
    j / (glyphW + c.gap) < chars.length := by
  unfold stripWidth at hj
  split at hj
  · omega
  · rename_i hl
    unfold glyphW at *
    rcases Nat.lt_or_ge (j / (8 + c.gap)) chars.length with h | h
    · exact h
    · exfalso
      have h1 : chars.length * (8 + c.gap) ≤ j :=
        (Nat.mul_le_mul_right _ h).trans (Nat.div_mul_le_self j _)
      have h2 : chars.length * (8 + c.gap) = chars.length * 8 + chars.length * c.gap := Nat.mul_add _ _ _
      have h3 : (chars.length - 1) * c.gap ≤ chars.length * c.gap := Nat.mul_le_mul_right _ (by omega)
      omega

end Sys2Proof.Machine
end

