-- ==== Sys2Proof/Laws/Step.lean ====
section
/-! SUPPORT. What a command can do, said once: the inversion lemma of `exec`. -/

namespace Sys2Proof.Machine

/-- A scroll stays one that a run reaches (45_scroll_engine.md R197). -/
theorem advance_inv {c : Config} {n : Nat} {st : ScrollState} (h : st.Inv c n) : (advance n st).Inv c n := by
  obtain ⟨h1, h2, h3, h4, h5, h6, h7⟩ := h
  unfold advance
  cases ht : st.tmode with
  | loop =>
    have := h4 ht
    simp only
    split
    · exact ⟨h1, h2, by simp, fun _ => by simp, by simp, by simpa [ht] using h6, by simp⟩
    · have := Nat.mod_lt (st.offset + 1) (show st.width > 0 by omega)
      exact ⟨h1, h2, by simp only; omega, fun _ => by simp only; omega, by simp, by simpa [ht] using h6, by simp⟩
  | bounce =>
    have hb := h5 ht
    have hl : bounceLimit n st ≤ st.width := by unfold bounceLimit; split <;> omega
    have key : ∀ o d f,
        bounceLimit n { chars := st.chars, tmode := .bounce, width := st.width, offset := o, dir := d, finished := f } =
          bounceLimit n st := fun _ _ _ => rfl
    simp only
    split
    · exact ⟨h1, h2, by simp, by simp, by simp, by simp, by simp⟩
    · cases hd : st.dir <;> simp only <;> split <;> refine ⟨h1, h2, ?_, by simp, fun _ => ?_, by simp, by simp⟩ <;>
        simp only [key] <;> omega
  | once =>
    simp only
    exact ⟨h1, h2, by simp only; omega, by simp, by simp, fun h => by have := h6 h; simp_all, by simp⟩

/-- The scroll `SCROLL_START` creates is one (45_scroll_engine.md R200). -/
theorem fresh_inv {c : Config} {n : Nat} (tm : TMode) {chars : List Char} (h : chars.length ≤ min 255 c.maxScrollChars) :
    (freshScroll c tm chars).Inv c n :=
  ⟨h, rfl, Nat.zero_le _, fun _ => by simp [freshScroll], fun _ => Nat.zero_le _, by simp [freshScroll], by
    simp only [freshScroll, Bool.and_eq_true, decide_eq_true_eq]
    exact and_congr_right fun _ => ⟨Eq.symm, Eq.symm⟩⟩

/-- The instance a command that emits starts its first frame with: `PCLEAR` has zeroed the buffer (41_register_protocol.md R115). -/
def atEmit (i : Instr) (inst : Inst) : Inst := if i = .pclear then inst.clearBuf else inst

/-- What follows the last frame: `INIT` makes the phase `Active` (41_register_protocol.md R110). -/
def afterEmit (i : Instr) (s : State) : State := if i = .init then s.setPhase .active else s

/-- Everything a command that is not refused can do (00_scope.md R10, R11; 60_exceptions.md R220, R229). -/
inductive ExecCase (i : Instr) (s t : State) : Prop where
  /-- It only answers: a result that changes nothing, or a local error (R10). -/
  | same (r : Response) (h : t = s.answer r) (hr : ∀ e, r ≠ .error (.transportFailure e))
      (he : i.emits = true → ∃ k, r = .error k)
  /-- `NEW` constructs the instance (42_chain_topology.md R130). -/
  | construct (n : Byte) (mode : Mode) (hi : i = .new n mode) (hs : s.inst = none) (h1 : 1 ≤ n.toNat)
      (h2 : n.toNat ≤ s.cfg.maxDevices) (h : t = (s.setInst (Inst.fresh n.toNat mode)).answer (.ok []))
  /-- It changes the buffer or the scroll, keeps what makes an instance legal, and sends nothing. -/
  | write (inst j : Inst) (hi : i.emits = false) (hs : s.inst = some inst) (hn : j.n = inst.n) (hm : j.mode = inst.mode)
      (hp : j.phase = inst.phase) (h : t = (s.setInst j).answer (.ok [])) (hI : inst.Inv s.cfg → j.Inv s.cfg)
  /-- It sends frames: all of them, or up to the first one the host fails. -/
  | emit (inst : Inst) (fs : List Frame) (hi : i.emits = true) (hs : s.inst = some inst)
      (hf : ∀ f ∈ fs, f.length = 2 * inst.n) (hgate : i ≠ .init → i ≠ .pclear → inst.phase = .active)
      (hclear : i = .pclear → fs = clearFrames inst.n)
      (h : (s.HostOk fs.length ∧ t = (afterEmit i ((s.setInst (atEmit i inst)).sent fs)).answer (.ok [])) ∨
        ∃ k e, k < fs.length ∧ s.HostFailsAt k e ∧
          t = (((s.setInst (atEmit i inst)).sent (fs.take (k + 1))).setPhase .uninitialized).answer
            (.error (.transportFailure e)))

/-- A gated command that emits frames and answers (41_register_protocol.md R104). -/
theorem emit_case {i : Instr} {s t : State} {inst : Inst} {fs : List Frame} (hi : i.emits = true) (hs : s.inst = some inst)
    (hf : ∀ f ∈ fs, f.length = 2 * inst.n) (hg : inst.phase = .active) (h1 : i ≠ .init) (h2 : i ≠ .pclear)
    (h : emitThen fs s (respond []) = .next t) : ExecCase i s t := by
  refine .emit inst fs hi hs hf (fun _ _ => hg) (fun h => absurd h h2) ?_
  simp only [atEmit, afterEmit, h1, h2, if_false, State.setInst_self hs]
  rcases emitThen_next h with ⟨a, b⟩ | ⟨j, e, a, b, c⟩
  · left; exact ⟨a, by simpa [eq_comm] using b⟩
  · right; exact ⟨j, e, a, b, c⟩

/-- Writing bytes inside the rows in use keeps the instance legal. -/
theorem inv_write {c : Config} {inst : Inst} {m : Memory} (hw : Memory.wf inst.buf = true → Memory.wf m = true)
   (hm : ∀ cell ∈ m, (cell.1 < 8 * inst.n ∧ cell.1 % 8 < rows c inst.mode) ∨ cell ∈ inst.buf) :
    inst.Inv c → ({ inst with buf := m } : Inst).Inv c := by
  rintro ⟨a, b, d, e, f⟩
  refine ⟨a, b, hw d, fun cell hc => ?_, f⟩
  rcases hm cell hc with h | h
  · exact h
  · exact e cell h

/-- The inversion lemma of `exec`. -/
theorem exec_case {i : Instr} {s t : State} (h : exec i s = .next t) : ExecCase i s t := by
  cases i with
  | new n mode =>
    simp only [exec, execNew] at h
    split at h
    · cases h
    · split at h
      · cases h
      · split at h
        · simp only [raise_eq, Host.Outcome.next.injEq] at h; exact .same _ h.symm (by simp) (by simp [Instr.emits])
        · simp only [respond_eq, Host.Outcome.next.injEq] at h; exact .construct n mode rfl ‹_› (by omega) (by omega) h.symm
  | deviceCount =>
    obtain ⟨inst, hs, h⟩ := withInst_next h
    simp only [respond_eq, Host.Outcome.next.injEq] at h; exact .same _ h.symm (by simp) (by simp [Instr.emits])
  | writeOne dev reg val =>
    obtain ⟨inst, hs, h⟩ := withInst_next h
    try dsimp only at h
    split at h
    · simp only [raise_eq, Host.Outcome.next.injEq] at h; exact .same _ h.symm (by simp) (by simp)
    · split at h
      · simp only [raise_eq, Host.Outcome.next.injEq] at h; exact .same _ h.symm (by simp) (by simp)
      · rcases requireActive_next h with ⟨hp, h⟩ | ⟨hp, h⟩
        · exact emit_case rfl hs (by simp [length_oneFrame]) hp (by simp) (by simp) h
        · exact .same _ h (by simp) (by simp)
  | writeBcast reg val =>
    obtain ⟨inst, hs, h⟩ := withInst_next h
    try dsimp only at h
    split at h
    · simp only [raise_eq, Host.Outcome.next.injEq] at h; exact .same _ h.symm (by simp) (by simp)
    · rcases requireActive_next h with ⟨hp, h⟩ | ⟨hp, h⟩
      · exact emit_case rfl hs (by simp [length_bcastFrame]) hp (by simp) (by simp) h
      · exact .same _ h (by simp) (by simp)
  | setIntensity val =>
    obtain ⟨inst, hs, h⟩ := withInst_next h
    try dsimp only at h
    split at h
    · simp only [raise_eq, Host.Outcome.next.injEq] at h; exact .same _ h.symm (by simp) (by simp)
    · rcases requireActive_next h with ⟨hp, h⟩ | ⟨hp, h⟩
      · exact emit_case rfl hs (by simp [length_bcastFrame]) hp (by simp) (by simp) h
      · exact .same _ h (by simp) (by simp)
  | writeAll reg vals =>
    obtain ⟨inst, hs, h⟩ := withInst_next h
    try dsimp only at h
    split at h
    · cases h
    · split at h
      · simp only [raise_eq, Host.Outcome.next.injEq] at h; exact .same _ h.symm (by simp) (by simp)
      · rcases requireActive_next h with ⟨hp, h⟩ | ⟨hp, h⟩
        · exact emit_case rfl hs (by simp_all [length_allFrame]) hp (by simp) (by simp) h
        · exact .same _ h (by simp) (by simp)
  | init =>
    obtain ⟨inst, hs, h⟩ := withInst_next h
    refine .emit inst (initFrames s.cfg inst.mode inst.n) rfl hs ?_ (by simp) (by simp) ?_
    · intro f hf; simp only [initFrames, List.mem_map] at hf; obtain ⟨p, -, rfl⟩ := hf; exact length_bcastFrame _ _ _
    · simp only [atEmit, afterEmit, if_true, reduceCtorEq, if_false, State.setInst_self hs]
      rcases emitThen_next h with ⟨a, b⟩ | ⟨j, e, a, b, c⟩
      · left; exact ⟨a, by simpa [eq_comm] using b⟩
      · right; exact ⟨j, e, a, b, c⟩
  | pclear =>
    obtain ⟨inst, hs, h⟩ := withInst_next h
    refine .emit inst (clearFrames inst.n) rfl hs ?_ (by simp) (by simp) ?_
    · intro f hf; simp only [clearFrames, List.mem_map] at hf; obtain ⟨p, -, rfl⟩ := hf; exact length_bcastFrame _ _ _
    · simp only [atEmit, afterEmit, if_true, reduceCtorEq, if_false]
      rcases emitThen_next h with ⟨a, b⟩ | ⟨j, e, a, b, c⟩
      · left; exact ⟨a, by simpa [eq_comm] using b⟩
      · right; exact ⟨j, e, a, b, c⟩
  | setPixel dev row col on =>
    obtain ⟨inst, hs, hm, h⟩ := inMode_next h
    try dsimp only at h
    split at h
    · simp only [raise_eq, Host.Outcome.next.injEq] at h; exact .same _ h.symm (by simp) (by simp [Instr.emits])
    · have ha : bufAddr dev.toNat row.toNat < 8 * inst.n := bufAddr_lt (by omega) (by omega)
      simp only [memRead_ok ha, memWrite_ok ha, access_ok, respond_eq, Host.Outcome.next.injEq] at h
      let m := inst.buf.write (bufAddr dev.toNat row.toNat) (withPixel (inst.buf.read (bufAddr dev.toNat row.toNat)) col.toNat on)
      refine .write inst { inst with buf := m } rfl hs rfl rfl rfl h.symm
        (inv_write (fun hw => Memory.wf_write hw _ _) fun cell hc => ?_)
      rcases Memory.mem_write hc with h | h
      · left; rw [h, hm]; unfold bufAddr at *; simp only [rows]; omega
      · exact .inr h
  | getPixel dev row col =>
    obtain ⟨inst, hs, hm, h⟩ := inMode_next h
    try dsimp only at h
    split at h
    · simp only [raise_eq, Host.Outcome.next.injEq] at h; exact .same _ h.symm (by simp) (by simp [Instr.emits])
    · have ha : bufAddr dev.toNat row.toNat < 8 * inst.n := bufAddr_lt (by omega) (by omega)
      simp only [memRead_ok ha, access_ok, respond_eq, Host.Outcome.next.injEq] at h
      exact .same _ h.symm (by simp) (by simp [Instr.emits])
  | setDigit dev pos ch dp =>
    obtain ⟨inst, hs, hm, h⟩ := inMode_next h
    try dsimp only at h
    have := rows_le s.cfg inst.mode
    split at h
    · simp only [raise_eq, Host.Outcome.next.injEq] at h; exact .same _ h.symm (by simp) (by simp [Instr.emits])
    · have ha : bufAddr dev.toNat pos.toNat < 8 * inst.n := bufAddr_lt (by omega) (by omega)
      simp only [memWrite_ok ha, access_ok, respond_eq, Host.Outcome.next.injEq] at h
      let m := inst.buf.write (bufAddr dev.toNat pos.toNat) (digitByte (glyphD s.cfg ch) dp)
      refine .write inst { inst with buf := m } rfl hs rfl rfl rfl h.symm
        (inv_write (fun hw => Memory.wf_write hw _ _) fun cell hc => ?_)
      rcases Memory.mem_write hc with h | h
      · left; rw [h]; unfold bufAddr at *; omega
      · exact .inr h
  | writeGlyph dev roff bm =>
    obtain ⟨inst, hs, h⟩ := withInst_next h
    try dsimp only at h
    have := rows_le s.cfg inst.mode
    split at h
    · simp only [raise_eq, Host.Outcome.next.injEq] at h; exact .same _ h.symm (by simp) (by simp [Instr.emits])
    · have hb := memWriteBlock_ok (inst := inst) (a := bufAddr dev.toNat roff.toNat) (vs := bm) (by unfold bufAddr; right; omega)
      simp only [hb, access_ok, respond_eq, Host.Outcome.next.injEq] at h
      let m := inst.buf.writeBlock (bufAddr dev.toNat roff.toNat) bm
      refine .write inst { inst with buf := m } rfl hs rfl rfl rfl h.symm
        (inv_write (fun hw => Memory.wf_writeBlock hw _ _) fun cell hc => ?_)
      rcases Memory.mem_writeBlock hc with h | h
      · left; unfold bufAddr at *; omega
      · exact .inr h
  | getRow dev row =>
    obtain ⟨inst, hs, h⟩ := withInst_next h
    try dsimp only at h
    have := rows_le s.cfg inst.mode
    split at h
    · simp only [raise_eq, Host.Outcome.next.injEq] at h; exact .same _ h.symm (by simp) (by simp [Instr.emits])
    · have ha : bufAddr dev.toNat row.toNat < 8 * inst.n := bufAddr_lt (by omega) (by omega)
      simp only [memRead_ok ha, access_ok, respond_eq, Host.Outcome.next.injEq] at h
      exact .same _ h.symm (by simp) (by simp [Instr.emits])
  | flush =>
    obtain ⟨inst, hs, h⟩ := withInst_next h
    have := rows_le s.cfg inst.mode
    rcases requireActive_next h with ⟨hp, h⟩ | ⟨hp, h⟩
    · simp only [readFrames_ok (show 0 + rows s.cfg inst.mode ≤ 8 by omega), access_ok] at h
      refine emit_case rfl hs ?_ hp (by simp) (by simp) h
      intro f hf
      simp only [List.mem_map, List.mem_range'_1] at hf
      obtain ⟨r, hr, rfl⟩ := hf
      exact (isFrame_rowFrame inst (by omega)).1
    · exact .same _ h (by simp) (by simp)
  | bclear =>
    obtain ⟨inst, hs, h⟩ := withInst_next h
    simp only [respond_eq, Host.Outcome.next.injEq] at h
    exact .write inst inst.clearBuf rfl hs rfl rfl rfl h.symm (fun ⟨a, b, _, _, f⟩ => ⟨a, b, rfl, by simp, f⟩)
  | glyphFor ch =>
    obtain ⟨inst, hs, h⟩ := withInst_next h
    simp only [respond_eq, Host.Outcome.next.injEq] at h; exact .same _ h.symm (by simp) (by simp [Instr.emits])
  | glyphForStrict ch =>
    obtain ⟨inst, hs, h⟩ := withInst_next h
    try dsimp only at h
    split at h <;> simp only [respond_eq, raise_eq, Host.Outcome.next.injEq] at h <;>
      exact .same _ h.symm (by simp) (by simp [Instr.emits])
  | scrollStart tm chars =>
    obtain ⟨inst, hs, hm, h⟩ := inMode_next h
    try dsimp only at h
    split at h
    · cases h
    · simp only [respond_eq, Host.Outcome.next.injEq] at h
      refine .write inst { inst with scroll := some (freshScroll s.cfg tm chars) } rfl hs rfl rfl rfl h.symm ?_
      rintro ⟨a, b, d, e, f⟩
      refine ⟨a, b, d, e, fun st hst => ⟨hm, ?_⟩⟩
      simp only [Option.some.injEq] at hst
      subst hst
      exact fresh_inv tm (by omega)
  | scrollStep =>
    obtain ⟨inst, hs, hm, h⟩ := inMode_next h
    obtain ⟨st, hst, h⟩ := withScroll_next h
    try dsimp only at h
    split at h
    · simp only [respond_eq, Host.Outcome.next.injEq] at h; exact .same _ h.symm (by simp) (by simp [Instr.emits])
    · obtain ⟨m, h1, h2, h3⟩ := writeWindow_ok s.cfg (advance inst.n st) (d := 0) (k := inst.n)
        (inst := { inst with scroll := some (advance inst.n st) }) (by simp)
      simp only [h1, access_ok, respond_eq, Host.Outcome.next.injEq] at h
      refine .write inst { inst with scroll := some (advance inst.n st), buf := m } rfl hs rfl rfl rfl h.symm ?_
      rintro ⟨a, b, d, e, f⟩
      refine ⟨a, b, (h2 d).1, fun cell hc => ?_, fun st' hst' => ⟨hm, ?_⟩⟩
      swap
      · simp only [Option.some.injEq] at hst'
        subst hst'
        exact advance_inv (f _ hst).2
      rcases h3 cell hc with h | h
      · simp only [hm, rows]; omega
      · exact e cell h
  | scrollFinished =>
    obtain ⟨inst, hs, hm, h⟩ := inMode_next h
    obtain ⟨st, hst, h⟩ := withScroll_next h
    simp only [respond_eq, Host.Outcome.next.injEq] at h; exact .same _ h.symm (by simp) (by simp [Instr.emits])
  | scrollStop =>
    obtain ⟨inst, hs, hm, h⟩ := inMode_next h
    simp only [respond_eq, Host.Outcome.next.injEq] at h
    refine .write inst { inst with scroll := none } rfl hs rfl rfl rfl h.symm ?_
    rintro ⟨a, b, d, e, f⟩
    exact ⟨a, b, d, e, by simp⟩

end Sys2Proof.Machine
end

