-- ==== Sys2Proof/Tests/Slice0.lean ====
section
/-! SUPPORT. Tests of one step or one decoding each, with the records, bytes and results of 95_test_vectors.md (named in each
comment: P, T, B, F, S vectors, E examples), and for every statement of Obligations.lean with hypotheses a state and operands
that meet them. -/

namespace Sys2Proof.Tests

open Sys2Proof Sys2Proof.Machine

/-! ### The test instantiation of 95_test_vectors.md -/

/-- The test font TF's 'I'. -/
def glyphI : Glyph := #v[0x18, 0x18, 0x18, 0x18, 0x18, 0x18, 0x18, 0x18]

/-- The test font TF's 'L'. -/
def glyphL : Glyph := #v[0x80, 0x80, 0x80, 0x80, 0x80, 0x80, 0x80, 0xFF]

/-- The test font TF's digit codes that the vectors use. -/
def digitFont : List (Char × Byte) := [('1', 0x30), ('2', 0x6D), ('5', 0x5B), ('7', 0x70), ('-', 0x01), (' ', 0x00)]

/-- MAX_DEVICES 4, DEFAULT_INTENSITY 7, SCROLL_GAP 1, MAX_SCROLL_CHARS 2, font TF, and the given DIGIT_COUNT less 1. -/
def cfg (digits : Fin 8) : Config :=
  { maxDevicesLess1 := 3, digitCountLess1 := digits, defaultIntensity := 7, scrollGap := 1, maxScrollCharsLess1 := 1,
    fontM := [('I', glyphI), ('L', glyphL), (' ', blankGlyph)], fontD := digitFont }

/-- A host that answers Ok to the next 13 transfers. -/
def oks : List HostResult := List.replicate 13 .ok

/-- A state with the given instance and host results. -/
def st (inst : Option Inst) (host : List HostResult := oks) : State :=
  { cfg := cfg 7, inst := inst, transcript := [], responses := [], inbox := [], hostResults := host, transfers := 0 }

/-- A matrix instance. -/
def mx (n : Nat) (phase : Phase) (buf : Memory := []) (scroll : Option ScrollState := none) : Inst :=
  { n := n, mode := .matrix, phase := phase, buf := buf, scroll := scroll }

/-- A digit instance of one device. -/
def dg (phase : Phase) (buf : Memory := []) : Inst := { n := 1, mode := .digit, phase := phase, buf := buf, scroll := none }

/-- The scroll of "IL" (width 17) at an offset. -/
def il (tmode : TMode) (offset : Nat) (dir : Dir := .plus) : ScrollState :=
  { chars := ['I', 'L'], tmode := tmode, width := 17, offset := offset, dir := dir, finished := false }

/-- 00_scope.md R6: the two defaults it names. -/
theorem test_config_defaults :
    ∀ (m : Fin 255) (v : Fin 16) (k : Nat), let c : Config :=
      { maxDevicesLess1 := m, defaultIntensity := v, maxScrollCharsLess1 := k, fontM := [], fontD := [] }
    c.digitCount = 8 ∧ c.gap = 1 := fun _ _ _ => ⟨rfl, rfl⟩

/-! ### What a step left -/

/-- A property of the next state; false of a fault or a refusal. -/
def holds (o : Outcome) (p : State → Bool) : Bool :=
  match o with
  | .next s => p s
  | .fault _ => false
  | .refused _ => false

/-- The refusal. -/
def refusedAs (o : Outcome) (r : Refusal) : Bool :=
  match o with
  | .next _ => false
  | .fault _ => false
  | .refused r' => decide (r' = r)

/-- The bytes of the responses. -/
def bytes (s : State) : List (List Byte) := s.responses.map Response.bytes

/-- The frames handed to the host, with its results. -/
def frames (s : State) : List (Frame × HostResult) :=
  s.transcript.filterMap fun e => match e with
    | .transfer f r => some (f, r)
    | .acquire => none
    | .release => none

/-- The phase. -/
def phaseOf (s : State) : Option Phase := s.inst.map Inst.phase

/-- The eight bytes of a device. -/
def rowsOf (s : State) (d : Nat) : List Byte :=
  match s.inst with
  | some inst => (List.range 8).map fun r => inst.byteAt d r
  | none => []

/-- The scroll's offset, direction and finished flag. -/
def scrollOf (s : State) : Option (Nat × Dir × Bool) := s.scroll?.map fun x => (x.offset, x.dir, x.finished)

/-! ### WellFormed: an ill-formed term for each check (30_encoding.md R81, R84) -/

theorem test_wf_writeAll_needs_a_value : (Instr.writeAll .noOp []).wf = false := by decide
theorem test_wf_writeAll_at_most_255 : (Instr.writeAll .noOp (List.replicate 256 0)).wf = false := by
  simp only [Instr.wf, valsWf, List.length_replicate]; decide
theorem test_wf_writeGlyph_at_most_255 : (Instr.writeGlyph 0 0 (List.replicate 256 0)).wf = false := by
  simp only [Instr.wf, bitmapWf, List.length_replicate]; decide
theorem test_wf_scrollStart_at_most_255 : (Instr.scrollStart .loop (List.replicate 256 'I')).wf = false := by
  simp only [Instr.wf, charsWf, List.length_replicate]; decide

/-! ### Decoding: the records of 30_encoding.md R82-R84, most of them as 95_test_vectors.md writes them -/

theorem test_decode_new : decode [0x01, 0x02, 0x00] = .ok (.new 2 .matrix) := by decide
theorem test_decode_new_digit : decode [0x01, 0x01, 0x01] = .ok (.new 1 .digit) := by decide
theorem test_decode_deviceCount : decode [0x02] = .ok .deviceCount := by decide
theorem test_decode_writeOne : decode [0x10, 0x00, 0x08, 0xFF] = .ok (.writeOne 0 (.digit 7) 0xFF) := by decide
theorem test_decode_writeBcast : decode [0x11, 0x0B, 0x07] = .ok (.writeBcast .scanLimit 7) := by decide
theorem test_decode_writeAll :
    decode [0x12, 0x04, 0x11, 0x22, 0x33] = .ok (.writeAll (.digit 3) [0x11, 0x22, 0x33]) := by decide
theorem test_decode_init : decode [0x13] = .ok .init := by decide
theorem test_decode_pclear : decode [0x14] = .ok .pclear := by decide
theorem test_decode_setPixel : decode [0x20, 0x01, 0x03, 0x05, 0x01] = .ok (.setPixel 1 3 5 true) := by decide
theorem test_decode_getPixel : decode [0x21, 0x01, 0x00, 0x07] = .ok (.getPixel 1 0 7) := by decide
theorem test_decode_setDigit :
    decode [0x22, 0x00, 0x03, 0x42, 0xF6, 0x01, 0x00, 0x00] = .ok (.setDigit 0 3 (Char.ofNat 0x1F642) false) := by decide
theorem test_decode_writeGlyph :
    decode [0x23, 0x00, 0x06, 0x02, 0xAA, 0x55] = .ok (.writeGlyph 0 6 [0xAA, 0x55]) := by decide
theorem test_decode_getRow : decode [0x24, 0x00, 0x07] = .ok (.getRow 0 7) := by decide
theorem test_decode_flush : decode [0x25] = .ok .flush := by decide
theorem test_decode_bclear : decode [0x26] = .ok .bclear := by decide
theorem test_decode_glyphFor : decode [0x30, 0x49, 0x00, 0x00, 0x00] = .ok (.glyphFor 'I') := by decide
theorem test_decode_glyphForStrict : decode [0x31, 0x2D, 0x00, 0x00, 0x00] = .ok (.glyphForStrict '-') := by decide
theorem test_decode_scrollStart :
    decode [0x40, 0x00, 0x02, 0x49, 0x00, 0x00, 0x00, 0x4C, 0x00, 0x00, 0x00] = .ok (.scrollStart .loop ['I', 'L']) := by
  decide
theorem test_decode_scrollStep : decode [0x41] = .ok .scrollStep := by decide
theorem test_decode_scrollFinished : decode [0x42] = .ok .scrollFinished := by decide
theorem test_decode_scrollStop : decode [0x43] = .ok .scrollStop := by decide
/-- 30_encoding.md R87: the words of `SET_INTENSITY 16` are those of `WRITE_BCAST Intensity, 16`. -/
theorem test_encode_setIntensity : encode (.setIntensity 0x10) = [0x11, 0x0A, 0x10] := by decide

/-- Records that spell no command (30_encoding.md R86, R88 (a)-(c); B8, B15, T7, F8). -/
theorem test_decode_rejects :
    decode [0x44] = .error (.reservedTag 0x44) ∧ decode [] = .error .badLength ∧ decode [0x13, 0x00] = .error .badLength ∧
    decode [0x40, 0x00, 0x02, 0x49, 0x00, 0x00, 0x00] = .error .badLength ∧
    decode [0x23, 0x00, 0x06, 0x01, 0xAA, 0x55] = .error .badLength ∧
    decode [0x11, 0x0D, 0x00] = .error (.badRegister 0x0D) ∧ decode [0x20, 0, 0, 0, 0x02] = .error (.badFlag 0x02) ∧
    decode [0x01, 0x02, 0x02] = .error (.badMode 0x02) ∧ decode [0x40, 0x03, 0x00] = .error (.badTMode 0x03) ∧
    decode [0x22, 0, 0, 0x00, 0xD8, 0x00, 0x00, 0x00] = .error (.badChar 0xD800) ∧
    decode [0x30, 0x00, 0x00, 0x11, 0x00] = .error (.badChar 0x110000) := by decide

/-- The opcode table's own words: the first byte lowest, operands it gives no bits read as zeros (log 19). -/
theorem test_decodeTableWord :
    decodeTableWord 8 0x01 = some (.new 0 .matrix) ∧ decodeTableWord 24 0x050A11 = some (.writeBcast .intensity 5) ∧
    decodeTableWord 8 0x12 = some (.writeAll .noOp [0]) ∧ decodeTableWord 8 0x44 = none := by decide

/-! ### Chain topology -/

/-- T2. -/
theorem test_new :
    holds (exec (.new 1 .matrix) (st none)) (fun s => bytes s = [[0x00]] ∧ s.inst = some (mx 1 .uninitialized)) = true := by
  decide
/-- T1, T6. -/
theorem test_new_zero_and_too_many :
    holds (exec (.new 0 .matrix) (st none)) (fun s => bytes s = [[0x01]] ∧ s.inst = none) = true ∧
    refusedAs (exec (.new 5 .digit) (st none)) (.tooManyDevices 5) = true := by decide
/-- T5. -/
theorem test_deviceCount : holds (exec .deviceCount (st (some (mx 3 .uninitialized)))) (fun s => bytes s = [[0x00, 0x03]]) = true := by
  decide

/-! ### Register protocol -/

/-- P1. -/
theorem test_writeOne :
    holds (exec (.writeOne 1 .intensity 5) (st (some (mx 3 .active))))
      (fun s => bytes s = [[0x00]] ∧ frames s = [([0x00, 0x00, 0x0A, 0x05, 0x00, 0x00], .ok)]) = true := by decide
/-- P8: the index error comes first. -/
theorem test_writeOne_priority :
    holds (exec (.writeOne 5 .intensity 0x20) (st (some (mx 3 .uninitialized))))
      (fun s => bytes s = [[0x02]] ∧ frames s = []) = true := by decide
/-- P10. -/
theorem test_writeBcast :
    holds (exec (.writeBcast .intensity 0) (st (some (mx 2 .active))))
      (fun s => bytes s = [[0x00]] ∧ frames s = [([0x0A, 0x00, 0x0A, 0x00], .ok)]) = true := by decide
/-- P21: the host fails. -/
theorem test_writeBcast_failure :
    holds (exec (.writeBcast .intensity 3) (st (some (mx 2 .active)) [.err 9]))
      (fun s => bytes s = [[0x06]] ∧ s.responses = [.error (.transportFailure 9)] ∧
        s.transcript = [.acquire, .transfer [0x0A, 0x03, 0x0A, 0x03] (.err 9), .release] ∧
        phaseOf s = some .uninitialized) = true := by decide
/-- P11. -/
theorem test_writeAll :
    holds (exec (.writeAll (.digit 3) [0x11, 0x22, 0x33]) (st (some (mx 3 .active))))
      (fun s => bytes s = [[0x00]] ∧ frames s = [([0x04, 0x11, 0x04, 0x22, 0x04, 0x33], .ok)]) = true := by decide
/-- P12, P14. -/
theorem test_writeAll_errors :
    holds (exec (.writeAll .intensity [0x0F, 0x10]) (st (some (mx 2 .active)))) (fun s => bytes s = [[0x03]]) = true ∧
    refusedAs (exec (.writeAll (.digit 0) [0x01]) (st (some (mx 2 .active)))) (.valueCount 1) = true := by decide
/-- P16: digit mode, DIGIT_COUNT 4; one device instead of two. -/
theorem test_init_digit :
    holds (exec .init { st (some (dg .uninitialized)) with cfg := cfg 3 })
      (fun s => bytes s = [[0x00]] ∧ phaseOf s = some .active ∧
        frames s = [([0x0F, 0x00], .ok), ([0x09, 0x00], .ok), ([0x0B, 0x03], .ok), ([0x0A, 0x07], .ok),
          ([0x0C, 0x01], .ok)]) = true := by decide
/-- P17: the third transfer fails. -/
theorem test_init_failure :
    holds (exec .init (st (some (mx 2 .uninitialized)) [.ok, .ok, .err 0]))
      (fun s => bytes s = [[0x06]] ∧ phaseOf s = some .uninitialized ∧
        frames s = [([0x0F, 0x00, 0x0F, 0x00], .ok), ([0x09, 0x00, 0x09, 0x00], .ok),
          ([0x0B, 0x07, 0x0B, 0x07], .err 0)]) = true := by decide
/-- P19. -/
theorem test_pclear :
    holds (exec .pclear (st (some (mx 2 .uninitialized [(3, 0x55)]))))
      (fun s => bytes s = [[0x00]] ∧ phaseOf s = some .uninitialized ∧ rowsOf s 0 = List.replicate 8 0 ∧
        (frames s).map Prod.fst = [[1, 0, 1, 0], [2, 0, 2, 0], [3, 0, 3, 0], [4, 0, 4, 0], [5, 0, 5, 0], [6, 0, 6, 0],
          [7, 0, 7, 0], [8, 0, 8, 0]]) = true := by decide
/-- P20: the buffer is zeroed although the first frame fails. -/
theorem test_pclear_failure :
    holds (exec .pclear (st (some (mx 1 .active [(3, 0x55)])) [.err 1]))
      (fun s => bytes s = [[0x06]] ∧ phaseOf s = some .uninitialized ∧ rowsOf s 0 = List.replicate 8 0 ∧
        frames s = [([0x01, 0x00], .err 1)]) = true := by decide
/-- E5: in either phase, status 03 and no transfer. -/
theorem test_setIntensity :
    holds (exec (.setIntensity 16) (st (some (mx 2 .uninitialized)))) (fun s => bytes s = [[0x03]] ∧ frames s = []) = true ∧
    holds (exec (.setIntensity 15) (st (some (mx 1 .active)))) (fun s => frames s = [([0x0A, 0x0F], .ok)]) = true := by decide

/-! ### Display buffer -/

/-- B2, B3. -/
theorem test_setPixel :
    holds (exec (.setPixel 1 0 7 true) (st (some (mx 2 .uninitialized [(8, 0x80)]))))
      (fun s => bytes s = [[0x00]] ∧ rowsOf s 1 = [0x81, 0, 0, 0, 0, 0, 0, 0]) = true ∧
    holds (exec (.setPixel 1 0 0 false) (st (some (mx 2 .uninitialized [(8, 0x81)]))))
      (fun s => rowsOf s 1 = [0x01, 0, 0, 0, 0, 0, 0, 0]) = true := by decide
/-- B5, B6, B7, B10. -/
theorem test_setPixel_errors :
    holds (exec (.setPixel 2 0 0 true) (st (some (mx 2 .active)))) (fun s => bytes s = [[0x02]]) = true ∧
    holds (exec (.setPixel 0 8 0 true) (st (some (mx 2 .active)))) (fun s => bytes s = [[0x02]]) = true ∧
    holds (exec (.setPixel 0 0 8 true) (st (some (mx 2 .active)))) (fun s => bytes s = [[0x02]]) = true ∧
    refusedAs (exec (.setPixel 0 0 0 true) (st (some (dg .active)))) (.wrongMode .digit) = true := by decide
/-- B9, E2. -/
theorem test_getPixel :
    holds (exec (.getPixel 1 0 7) (st (some (mx 2 .active [(8, 0x01)])))) (fun s => bytes s = [[0x00, 0x01]]) = true ∧
    holds (exec (.getPixel 1 3 5) (st (some (mx 2 .active [(11, 0xFB)])))) (fun s => bytes s = [[0x00, 0x00]]) = true := by decide
/-- B11, B13. -/
theorem test_setDigit :
    holds (exec (.setDigit 0 2 '5' true) (st (some (dg .active)))) (fun s => rowsOf s 0 = [0, 0, 0xDB, 0, 0, 0, 0, 0]) = true ∧
    holds (exec (.setDigit 0 0 ' ' true) (st (some (dg .active)))) (fun s => rowsOf s 0 = [0x80, 0, 0, 0, 0, 0, 0, 0]) = true := by
  decide
/-- B12, B14. -/
theorem test_setDigit_unsupported_and_bounds :
    holds (exec (.setDigit 0 0 (Char.ofNat 0x1F642) false) (st (some (dg .active [(0, 0x7F)]))))
      (fun s => bytes s = [[0x00]] ∧ rowsOf s 0 = List.replicate 8 0) = true ∧
    holds (exec (.setDigit 0 4 '1' false) { st (some (dg .active)) with cfg := cfg 3 }) (fun s => bytes s = [[0x02]]) = true := by
  decide
/-- B17. -/
theorem test_writeGlyph :
    holds (exec (.writeGlyph 0 6 [0xAA, 0x55]) (st (some (mx 1 .active))))
      (fun s => bytes s = [[0x00]] ∧ rowsOf s 0 = [0, 0, 0, 0, 0, 0, 0xAA, 0x55]) = true := by decide
/-- B18, B19, B20. -/
theorem test_writeGlyph_bounds :
    holds (exec (.writeGlyph 0 7 [0xAA, 0x55]) (st (some (mx 1 .active))))
      (fun s => bytes s = [[0x02]] ∧ rowsOf s 0 = List.replicate 8 0) = true ∧
    holds (exec (.writeGlyph 0 8 []) (st (some (mx 1 .active)))) (fun s => bytes s = [[0x00]]) = true ∧
    holds (exec (.writeGlyph 0 9 []) (st (some (mx 1 .active)))) (fun s => bytes s = [[0x02]]) = true := by decide
/-- B23, B24. -/
theorem test_getRow :
    holds (exec (.getRow 0 7) (st (some (mx 1 .active [(6, 0xAA), (7, 0x55)])))) (fun s => bytes s = [[0x00, 0x55]]) = true ∧
    holds (exec (.getRow 0 8) (st (some (mx 1 .active)))) (fun s => bytes s = [[0x02]]) = true := by decide
/-- B27: digit mode, DIGIT_COUNT 4. -/
theorem test_flush_digit :
    holds (exec .flush { st (some (dg .active [(0, 0x30), (1, 0xED), (2, 0x5B)])) with cfg := cfg 3 })
      (fun s => bytes s = [[0x00]] ∧
        frames s = [([0x01, 0x30], .ok), ([0x02, 0xED], .ok), ([0x03, 0x5B], .ok), ([0x04, 0x00], .ok)]) = true := by decide
/-- B28, with the buffer of B25: the second transfer fails. -/
theorem test_flush_failure :
    holds (exec .flush (st (some (mx 2 .active [(0, 0x80), (15, 0x01)])) [.ok, .err 2]))
      (fun s => bytes s = [[0x06]] ∧ phaseOf s = some .uninitialized ∧ rowsOf s 0 = [0x80, 0, 0, 0, 0, 0, 0, 0] ∧
        frames s = [([0x01, 0x80, 0x01, 0x00], .ok), ([0x02, 0x00, 0x02, 0x00], .err 2)]) = true := by decide
/-- B29; the scroll is untouched (43_display_buffer.md R155). -/
theorem test_bclear :
    holds (exec .bclear (st (some (mx 1 .active [(3, 0x55)] (some (il .loop 4))))))
      (fun s => bytes s = [[0x00]] ∧ rowsOf s 0 = List.replicate 8 0 ∧ frames s = [] ∧
        scrollOf s = some (4, .plus, false)) = true := by decide

/-! ### Font table -/

/-- F1, F2, F5, F6. -/
theorem test_glyphFor :
    holds (exec (.glyphFor 'I') (st (some (mx 1 .active))))
      (fun s => bytes s = [[0x00, 0x18, 0x18, 0x18, 0x18, 0x18, 0x18, 0x18, 0x18]]) = true ∧
    holds (exec (.glyphFor 'A') (st (some (mx 1 .active)))) (fun s => bytes s = [[0, 0, 0, 0, 0, 0, 0, 0, 0]]) = true ∧
    holds (exec (.glyphFor '7') (st (some (dg .active)))) (fun s => bytes s = [[0x00, 0x70]]) = true ∧
    holds (exec (.glyphFor 'I') (st (some (dg .active)))) (fun s => bytes s = [[0x00, 0x00]]) = true := by decide
/-- F3, F4, F7. -/
theorem test_glyphForStrict :
    holds (exec (.glyphForStrict 'A') (st (some (mx 1 .active)))) (fun s => bytes s = [[0x05]]) = true ∧
    holds (exec (.glyphForStrict ' ') (st (some (mx 1 .active)))) (fun s => bytes s = [[0, 0, 0, 0, 0, 0, 0, 0, 0]]) = true ∧
    holds (exec (.glyphForStrict '-') (st (some (dg .active)))) (fun s => bytes s = [[0x00, 0x01]]) = true := by decide

/-! ### Scroll engine -/

/-- 45_scroll_engine.md R200's example, and S21. -/
theorem test_scrollStart :
    holds (exec (.scrollStart .loop ['I', 'L']) (st (some (mx 1 .active))))
      (fun s => bytes s = [[0x00]] ∧ s.scroll? = some (il .loop 0)) = true ∧
    holds (exec (.scrollStart .once []) (st (some (mx 1 .active)))) (fun s => scrollOf s = some (0, .plus, true)) = true := by
  decide
/-- S24, and a text longer than MAX_SCROLL_CHARS (30_encoding.md R88 (c)). -/
theorem test_scrollStart_refused :
    refusedAs (exec (.scrollStart .loop ['1']) (st (some (dg .active)))) (.wrongMode .digit) = true ∧
    refusedAs (exec (.scrollStart .loop ['I', 'I', 'I']) (st (some (mx 1 .active)))) (.tooManyChars 3) = true := by decide
/-- S3 (the window wraps), S12 (a bounce turns), S8 (once ends), S9 (a finished once scroll). -/
theorem test_scrollStep :
    holds (exec .scrollStep (st (some (mx 1 .active [] (some (il .loop 15))))))
      (fun s => rowsOf s 0 = [0x0C, 0x0C, 0x0C, 0x0C, 0x0C, 0x0C, 0x0C, 0x8C] ∧ scrollOf s = some (16, .plus, false)) = true ∧
    holds (exec .scrollStep (st (some (mx 1 .active [] (some (il .bounce 9))))))
      (fun s => rowsOf s 0 = [0x40, 0x40, 0x40, 0x40, 0x40, 0x40, 0x40, 0x7F] ∧ scrollOf s = some (8, .minus, false)) = true ∧
    holds (exec .scrollStep (st (some (mx 1 .active [(7, 0x80)] (some (il .once 16))))))
      (fun s => rowsOf s 0 = List.replicate 8 0 ∧ scrollOf s = some (17, .plus, true)) = true ∧
    holds (exec .scrollStep (st (some (mx 1 .active [(7, 0x80)] (some { il .once 17 with finished := true })))))
      (fun s => rowsOf s 0 = [0, 0, 0, 0, 0, 0, 0, 0x80] ∧ scrollOf s = some (17, .plus, true)) = true := by decide
/-- S15 (two devices), S23. -/
theorem test_scrollStep_two_devices :
    holds (exec .scrollStep (st (some (mx 2 .uninitialized [] (some (il .loop 0))))))
      (fun s => rowsOf s 0 = List.replicate 8 0x30 ∧ rowsOf s 1 = [0x80, 0x80, 0x80, 0x80, 0x80, 0x80, 0x80, 0xFF] ∧
        frames s = []) = true ∧
    refusedAs (exec .scrollStep (st (some (mx 1 .active)))) .noScroll = true := by decide
/-- E4. -/
theorem test_scrollFinished :
    holds (exec .scrollFinished (st (some (mx 1 .active [] (some (il .once 16)))))) (fun s => bytes s = [[0x00, 0x00]]) = true ∧
    holds (exec .scrollFinished (st (some (mx 1 .active [] (some { il .once 17 with finished := true })))))
      (fun s => bytes s = [[0x00, 0x01]]) = true := by decide
/-- 45_scroll_engine.md R207: the buffer keeps the window; without a scroll it is a no-op that returns Ok. -/
theorem test_scrollStop :
    holds (exec .scrollStop (st (some (mx 1 .active [(0, 0x30)] (some (il .loop 1))))))
      (fun s => bytes s = [[0x00]] ∧ s.scroll? = none ∧ rowsOf s 0 = [0x30, 0, 0, 0, 0, 0, 0, 0]) = true ∧
    holds (exec .scrollStop (st (some (mx 1 .active)))) (fun s => bytes s = [[0x00]]) = true := by decide

/-! ### The step -/

/-- T3 and T4 as records; a record of Program 2 (95_test_vectors.md) run by the step. -/
theorem test_step :
    refusedAs (step { st (some (mx 1 .active)) with inbox := [[0x01, 0x02, 0x00]] }) .alreadyConstructed = true ∧
    refusedAs (step { st none with inbox := [[0x02]] }) .unconstructed = true ∧
    holds (step { st (some (dg .uninitialized)) with inbox := [[0x22, 0x00, 0x01, 0x32, 0x00, 0x00, 0x00, 0x01], [0x25]] })
      (fun s => rowsOf s 0 = [0, 0xED, 0, 0, 0, 0, 0, 0] ∧ s.inbox = [[0x25]] ∧ bytes s = [[0x00]]) = true := by decide
/-- `withFetchWord` gives the table's word to the very next step (log 19): `NEW 0` after reset (T1). -/
theorem test_withFetchWord :
    step (State.reset.withFetchWord 8 0x01) = .next (State.reset.answer (.error .zeroLengthChain)) := by rfl

/-! ### Witnesses: states and operands that meet the hypotheses of each statement, clause by clause -/

theorem hostOk_of_replicate (s : State) {k : Nat} (hk : k ≤ 13) (h : s.hostResults = oks) : s.HostOk k := by
  intro j hj
  simp only [State.resultAt, h, oks, List.getElem?_replicate, if_pos (show j < 13 by omega), Option.getD_some]

theorem hostFailsAt_zero (s : State) {e : HostError} (h : s.hostResults = [.err e]) : s.HostFailsAt 0 e :=
  ⟨fun j hj => absurd hj (Nat.not_lt_zero j), by simp [State.resultAt, h]⟩

/-- A host that answers Ok `k` times and then fails. -/
theorem hostFailsAt_after (s : State) {k : Nat} {e : HostError} (h : s.hostResults = List.replicate k .ok ++ [.err e]) :
    s.HostFailsAt k e := by
  refine ⟨fun j hj => ?_, by simp [State.resultAt, h]⟩
  simp [State.resultAt, h, List.getElem?_append_left, hj]

/-- The instance `NEW 2, mode` constructs is legal, in either phase and mode. -/
theorem fresh_inst_inv (mode : Mode) (p : Phase) : ({ Inst.fresh 2 mode with phase := p } : Inst).Inv (cfg 7) :=
  ⟨Nat.le_succ 1, by cases mode <;> cases p <;> decide, rfl, fun _ h => (by cases h), fun _ h => by cases h⟩

/-- A legal instance that scrolls. -/
theorem scroll_inst_inv : (mx 1 .active [] (some (il .bounce 9))).Inv (cfg 7) :=
  ⟨by decide, by decide, rfl, fun _ h => (by cases h), fun x h => by
    cases h
    exact ⟨rfl, by decide, by decide, by decide, by decide, by decide, by decide, by decide⟩⟩

/-- A state of a run, with its instance just constructed. -/
theorem run_state_inv (mode : Mode) : (st (some (Inst.fresh 2 mode))).Inv :=
  ⟨fun _ h => by cases h; exact fresh_inst_inv mode .uninitialized, fun _ _ => rfl, fun h => by cases h⟩

theorem witness_StepRunsTheDecodedCommand :
    ({ st none with inbox := [[0x01, 0x02, 0x00]] } : State).inbox = [0x01, 0x02, 0x00] :: [] ∧
    decode [0x01, 0x02, 0x00] = .ok (.new 2 .matrix) := by decide

theorem witness_StepRefusesARecordThatSpellsNoCommand :
    ({ st none with inbox := [[0x44]] } : State).inbox = [0x44] :: [] ∧ decode [0x44] = .error (.reservedTag 0x44) := by decide

theorem witness_StepWithoutARecordChangesNothing : State.reset.inbox = [] := rfl

/-- A reserved tag, one on each side of a range, and a tag that is not reserved. -/
theorem witness_ReservedTagsAreRefused :
    refusedAs (step { st none with inbox := [[0x44, 0x01]] }) (.badRecord (.reservedTag 0x44)) = true ∧
    refusedAs (step { st none with inbox := [[0x15]] }) (.badRecord (.reservedTag 0x15)) = true ∧
    refusedAs (step { st none with inbox := [[0x14]] }) .unconstructed = true := by decide

theorem witness_RegisterCodesAreTheTableOfR72 :
    (0x0D#8).toNat = 0x0D ∧ (0x0E#8).toNat = 0x0E ∧ 0x10 ≤ (0x10#8).toNat ∧ 0x10 ≤ (0xFF#8).toNat := by decide

theorem witness_DecodingAnEncodedCommandGivesItBack :
    (Instr.writeAll .noOp [0x01]).wf = true ∧ (Instr.writeAll .noOp (List.replicate 255 0x01)).wf = true ∧
    (Instr.writeGlyph 0 0 []).wf = true ∧ (Instr.scrollStart .once []).wf = true ∧ (Instr.setIntensity 16).wf = true := by
  refine ⟨by decide, ?_, by decide, by decide, by decide⟩
  simp only [Instr.wf, valsWf, List.length_replicate]; decide

theorem witness_ADecodedRecordIsTheCommandsRecord : decode [0x11, 0x0A, 0x10] = .ok (.writeBcast .intensity 0x10) := by decide

theorem witness_OnlyNewIsAdmittedBeforeConstruction :
    ((st none).inst = none ∧ ∀ n mode, Instr.flush ≠ .new n mode) ∧
    (Instr.new 4 .digit = .new 4 .digit ∧ (4#8).toNat ≤ (st none).cfg.maxDevices) ∧
    ((st (some (mx 1 .active))).inst = some (mx 1 .active) ∧ Instr.new 2 .digit = .new 2 .digit) :=
  ⟨⟨rfl, by simp⟩, ⟨rfl, by decide⟩, rfl, rfl⟩

theorem witness_CommandsTheInstanceDoesNotAdmitAreRefused :
    ((st (some (dg .active))).inst = some (dg .active) ∧ (dg .active).mode = .digit) ∧
    ((st (some (mx 2 .active))).inst = some (mx 2 .active) ∧ (mx 2 .active).mode = .matrix ∧
      ([0x01] : List Byte).length ≠ (mx 2 .active).n ∧
      (cfg 7).maxScrollChars < ['I', 'I', 'I'].length ∧ (mx 2 .active).scroll = none) := by decide

theorem witness_NewConstructsTheInstance :
    ((st none).inst = none ∧ (0#8).toNat = 0) ∧
    (1 ≤ (1#8).toNat ∧ (4#8).toNat ≤ (st none).cfg.maxDevices) ∧ (st none).cfg.maxDevices < (5#8).toNat ∧
    (st (some (mx 1 .active))).inst = some (mx 1 .active) := by decide

theorem witness_DeviceCountAnswersN :
    (st (some (Inst.fresh 2 .digit))).inst = some (Inst.fresh 2 .digit) ∧
    (Inst.fresh 2 .digit).Inv (st (some (Inst.fresh 2 .digit))).cfg :=
  ⟨rfl, fresh_inst_inv .digit .uninitialized⟩

/-- The bounds of each clause: device N−1 and N, intensity 15 and 16, either phase, a host that answers Ok and one that fails. -/
theorem witness_WriteOneSendsThePairAtTheDevicesSlot :
    ((st (some (mx 2 .active))).inst = some (mx 2 .active) ∧ (mx 2 .active).n ≤ (2#8).toNat) ∧
    ((1#8).toNat < (mx 2 .active).n ∧ 15 < (16#8).toNat) ∧
    (¬(Register.intensity = .intensity ∧ 15 < (15#8).toNat) ∧ (mx 2 .uninitialized).phase = .uninitialized) ∧
    (¬(Register.noOp = .intensity ∧ 15 < (0xFF#8).toNat) ∧ (mx 2 .active).phase = .active) ∧
    (st (some (mx 2 .active))).HostOk 1 ∧ (st (some (mx 2 .active)) [.err 3]).HostFailsAt 0 3 :=
  ⟨by decide, by decide, by decide, by decide, hostOk_of_replicate _ (by decide) rfl, hostFailsAt_zero _ rfl⟩

theorem witness_WriteBcastSendsThePairAtEverySlot :
    ((st (some (mx 2 .active))).inst = some (mx 2 .active) ∧ 15 < (16#8).toNat) ∧
    (¬(Register.intensity = .intensity ∧ 15 < (15#8).toNat) ∧ (mx 2 .uninitialized).phase = .uninitialized) ∧
    (mx 2 .active).phase = .active ∧ (st (some (mx 2 .active))).HostOk 1 ∧
    (st (some (mx 2 .active)) [.err 3]).HostFailsAt 0 3 :=
  ⟨by decide, by decide, rfl, hostOk_of_replicate _ (by decide) rfl, hostFailsAt_zero _ rfl⟩

theorem witness_SetIntensityBroadcastsTheIntensity :
    ((st (some (mx 2 .active))).inst = some (mx 2 .active) ∧ 15 < (16#8).toNat) ∧
    ((15#8).toNat ≤ 15 ∧ (mx 2 .uninitialized).phase = .uninitialized ∧ (mx 2 .active).phase = .active) ∧
    (st (some (mx 2 .active))).HostOk 1 ∧ (st (some (mx 2 .active)) [.err 3]).HostFailsAt 0 3 :=
  ⟨by decide, by decide, hostOk_of_replicate _ (by decide) rfl, hostFailsAt_zero _ rfl⟩

theorem witness_WriteAllSendsEachDeviceItsValue :
    (1 ≤ ([1, 2] : List Byte).length ∧ ([1, 2] : List Byte).length ≤ 255) ∧
    ((st (some (mx 2 .active))).inst = some (mx 2 .active) ∧ ([1] : List Byte).length ≠ (mx 2 .active).n) ∧
    (([15, 16] : List Byte).length = (mx 2 .active).n ∧ ∃ v ∈ ([15, 16] : List Byte), 15 < v.toNat) ∧
    (¬(Register.intensity = .intensity ∧ ∃ v ∈ ([15, 15] : List Byte), 15 < v.toNat) ∧
      (mx 2 .uninitialized).phase = .uninitialized ∧ (mx 2 .active).phase = .active) ∧
    (st (some (mx 2 .active))).HostOk 1 ∧ (st (some (mx 2 .active)) [.err 3]).HostFailsAt 0 3 :=
  ⟨by decide, by decide, by decide, by decide, hostOk_of_replicate _ (by decide) rfl, hostFailsAt_zero _ rfl⟩

theorem witness_WriteAllOfEqualValuesIsWriteBcast :
    (st (some (mx 1 .active))).inst = some (mx 1 .active) ∧ 1 ≤ (mx 1 .active).n := by decide

/-- The host answers Ok to all five frames, or fails the first or the last. -/
theorem witness_InitSendsTheFiveFramesAndActivates :
    (st (some (mx 2 .uninitialized))).inst = some (mx 2 .uninitialized) ∧ (st (some (mx 2 .uninitialized))).HostOk 5 ∧
    (st (some (mx 2 .uninitialized)) [.err 3]).HostFailsAt 0 3 ∧
    (st (some (dg .active)) [.ok, .ok, .ok, .ok, .err 3]).HostFailsAt 4 3 :=
  ⟨rfl, hostOk_of_replicate _ (by decide) rfl, hostFailsAt_zero _ rfl, hostFailsAt_after _ rfl⟩

theorem witness_PclearZeroesTheBufferAndTheDigitRegisters :
    (st (some (mx 2 .uninitialized [(3, 0x55)]))).inst = some (mx 2 .uninitialized [(3, 0x55)]) ∧
    (st (some (mx 2 .uninitialized [(3, 0x55)]))).HostOk 8 ∧
    (st (some (dg .active)) [.err 3]).HostFailsAt 0 3 ∧
    (st (some (dg .active)) [.ok, .ok, .ok, .ok, .ok, .ok, .ok, .err 3]).HostFailsAt 7 3 :=
  ⟨rfl, hostOk_of_replicate _ (by decide) rfl, hostFailsAt_zero _ rfl, hostFailsAt_after _ rfl⟩

/-- Each bound on both sides, in a canonical buffer. -/
theorem witness_SetPixelSetsOneBit :
    ((st (some (dg .active))).inst = some (dg .active) ∧ (dg .active).mode = .digit) ∧
    ((st (some (mx 2 .active [(8, 0x80)]))).inst = some (mx 2 .active [(8, 0x80)]) ∧ (mx 2 .active).mode = .matrix) ∧
    ((mx 2 .active).n ≤ (2#8).toNat ∧ 8 ≤ (8#8).toNat) ∧
    ((1#8).toNat < (mx 2 .active).n ∧ (7#8).toNat < 8 ∧ Memory.wf (mx 2 .active [(8, 0x80)]).buf = true) := by decide

theorem witness_GetPixelAnswersTheBit :
    ((st (some (dg .active))).inst = some (dg .active) ∧ (dg .active).mode = .digit) ∧
    ((st (some (mx 2 .active))).inst = some (mx 2 .active) ∧ (mx 2 .active).mode = .matrix) ∧
    ((mx 2 .active).n ≤ (2#8).toNat ∧ 8 ≤ (8#8).toNat) ∧ ((1#8).toNat < (mx 2 .active).n ∧ (7#8).toNat < 8) := by decide

theorem witness_SetPixelThenGetPixelAnswersTheBitWritten :
    (st (some (mx 2 .uninitialized [(8, 0x80)]))).inst = some (mx 2 .uninitialized [(8, 0x80)]) ∧
    (mx 2 .uninitialized [(8, 0x80)]).mode = .matrix ∧ Memory.wf (mx 2 .uninitialized [(8, 0x80)]).buf = true ∧
    (1#8).toNat < (mx 2 .uninitialized [(8, 0x80)]).n ∧ (7#8).toNat < 8 ∧ (0#8).toNat < 8 := by decide

theorem witness_SetDigitWritesSegmentsAndPoint :
    ((st (some (mx 1 .active))).inst = some (mx 1 .active) ∧ (mx 1 .active).mode = .matrix) ∧
    ((st (some (dg .active))).inst = some (dg .active) ∧ (dg .active).mode = .digit) ∧
    ((dg .active).n ≤ (1#8).toNat ∧ (cfg 7).digitCount ≤ (8#8).toNat) ∧
    ((0#8).toNat < (dg .active).n ∧ (7#8).toNat < (cfg 7).digitCount ∧ Memory.wf (dg .active).buf = true) := by decide

theorem witness_WriteGlyphOverwritesABlockOfRows :
    ([] : List Byte).length ≤ 255 ∧ (st (some (mx 1 .active))).inst = some (mx 1 .active) ∧
    (mx 1 .active).n ≤ (1#8).toNat ∧ rows (cfg 7) .matrix < (9#8).toNat + ([] : List Byte).length ∧
    (0#8).toNat < (mx 1 .active).n ∧ (6#8).toNat + ([0xAA, 0x55] : List Byte).length ≤ rows (cfg 7) (mx 1 .active).mode ∧
    Memory.wf (mx 1 .active).buf = true := by decide

theorem witness_GetRowAnswersTheByte :
    (st (some (dg .active))).inst = some (dg .active) ∧ (dg .active).n ≤ (1#8).toNat ∧
    rows (cfg 7) (dg .active).mode ≤ (8#8).toNat ∧ (0#8).toNat < (dg .active).n ∧
    (7#8).toNat < rows (cfg 7) (dg .active).mode := by decide

/-- In digit mode with DIGIT_COUNT 4 the last of four frames fails. -/
theorem witness_FlushSendsEveryRow :
    (st (some (mx 2 .uninitialized))).inst = some (mx 2 .uninitialized) ∧ (mx 2 .uninitialized).phase = .uninitialized ∧
    (mx 2 .active).phase = .active ∧ (st (some (mx 2 .active))).HostOk 8 ∧
    ({ st (some (dg .active)) [.ok, .ok, .ok, .err 3] with cfg := cfg 3 } : State).HostFailsAt 3 3 :=
  ⟨rfl, rfl, rfl, hostOk_of_replicate _ (by decide) rfl, hostFailsAt_after _ rfl⟩

theorem witness_BclearZeroesTheBuffer :
    (st (some (mx 1 .active [(3, 0x55)]))).inst = some (mx 1 .active [(3, 0x55)]) := rfl

theorem witness_BclearThenFlushSendsZeroRows :
    (st (some (mx 2 .active [(3, 0x55)]))).inst = some (mx 2 .active [(3, 0x55)]) ∧ (mx 2 .active [(3, 0x55)]).phase = .active ∧
    (st (some (mx 2 .active [(3, 0x55)]))).HostOk (rows (cfg 7) (mx 2 .active [(3, 0x55)]).mode) :=
  ⟨rfl, rfl, hostOk_of_replicate _ (by decide) rfl⟩

theorem witness_GlyphForAnswersTheGlyphOrBlank :
    ((st (some (mx 1 .active))).inst = some (mx 1 .active) ∧ (mx 1 .active).mode = .matrix) ∧
    ((st (some (dg .active))).inst = some (dg .active) ∧ (dg .active).mode = .digit) := by decide

theorem witness_GlyphForStrictFailsOnUnsupported :
    ((st (some (mx 1 .active))).inst = some (mx 1 .active) ∧ (mx 1 .active).mode = .matrix ∧
      ((cfg 7).fontM.lookup 'I').isSome = true ∧ ((cfg 7).fontM.lookup '5').isSome = false) ∧
    ((st (some (dg .active))).inst = some (dg .active) ∧ (dg .active).mode = .digit ∧
      ((cfg 7).fontD.lookup '5').isSome = true ∧ ((cfg 7).fontD.lookup 'I').isSome = false) := by decide

theorem witness_ScrollStartCreatesTheScroll :
    ((st (some (dg .active))).inst = some (dg .active) ∧ (dg .active).mode = .digit) ∧
    ((st (some (mx 1 .active))).inst = some (mx 1 .active) ∧ (mx 1 .active).mode = .matrix) ∧
    (cfg 7).maxScrollChars < ['I', 'I', 'I'].length ∧
    (['I', 'L'].length ≤ 255 ∧ ['I', 'L'].length ≤ (cfg 7).maxScrollChars ∧ ['I', 'L'] ≠ []) ∧
    ([] : List Char).length ≤ (cfg 7).maxScrollChars := by decide

/-- A state and a scroll for each clause: loop with a strip and without; bounce with M = 0 and with M = 9, at each end in each
direction; once before and after its end. -/
theorem witness_ScrollStepAdvancesAndWritesTheWindow :
    ((st (some (dg .active))).inst = some (dg .active) ∧ (dg .active).mode = .digit) ∧
    ((mx 1 .active).mode = .matrix ∧ (mx 1 .active).scroll = none) ∧
    ((st (some (mx 1 .active [] (some (il .once 16))))).inst = some (mx 1 .active [] (some (il .once 16))) ∧
      ¬((il .once 16).tmode = .once ∧ (il .once 16).finished = true) ∧
      Memory.wf (mx 1 .active [] (some (il .once 16))).buf = true) ∧
    (({ il .once 17 with finished := true } : ScrollState).tmode = .once ∧
      ({ il .once 17 with finished := true } : ScrollState).finished = true) ∧
    ((il .loop 16).tmode = .loop ∧ (il .loop 16).width ≠ 0 ∧
      ({ il .loop 0 with chars := [], width := 0 } : ScrollState).width = 0) ∧
    ((il .bounce 0).tmode = .bounce ∧
      ({ il .bounce 0 with chars := ['I'], width := 8 } : ScrollState).width ≤ 8 * (mx 1 .active).n) ∧
    8 * (mx 1 .active).n < (il .bounce 0).width ∧
    ((il .bounce 8).dir = .plus ∧ (il .bounce 8).offset < (il .bounce 8).width - 8 * (mx 1 .active).n) ∧
    ((il .bounce 9).dir = .plus ∧ (il .bounce 9).width - 8 * (mx 1 .active).n ≤ (il .bounce 9).offset) ∧
    ((il .bounce 1 .minus).dir = .minus ∧ 0 < (il .bounce 1 .minus).offset) ∧
    ((il .bounce 0 .minus).dir = .minus ∧ (il .bounce 0 .minus).offset = 0) := by decide

theorem witness_ScrollStepForgetsTheOldBuffer :
    (st (some (mx 1 .active [(3, 0x55)] (some (il .loop 0))))).inst = some (mx 1 .active [(3, 0x55)] (some (il .loop 0))) ∧
    ¬((il .loop 0).tmode = .once ∧ (il .loop 0).finished = true) ∧ Memory.wf [(3, 0x55)] = true ∧
    Memory.wf [(7, 0xAA)] = true ∧ (∀ cell ∈ ([(3, 0x55)] : Memory), cell.1 < 8 * 1) ∧
    ∀ cell ∈ ([(7, 0xAA)] : Memory), cell.1 < 8 * 1 := by decide

/-- The last column and row; a window column of the strip, one that wraps, and one beyond the strip's end. -/
theorem witness_WindowPixelIsTheStripPixel :
    7 < 8 ∧ ({ il .loop 0 with chars := [], width := 0 } : ScrollState).width = 0 ∧
    ((il .loop 16).tmode = .loop ∧ (il .loop 16).width ≠ 0) ∧
    ((il .once 9).tmode ≠ .loop ∧ 9 + (8 * 0 + 7) < (il .once 9).width) ∧
    ((il .bounce 9).tmode ≠ .loop ∧ (il .bounce 9).width ≤ 9 + (8 * 1 + 0)) := by decide

theorem witness_WindowReadsStayInsideTheStrip :
    (il .bounce 9).Inv (cfg 7) 1 ∧ winIndex (il .bounce 9) 9 7 = some 16 :=
  ⟨(scroll_inst_inv.scroll_inv _ rfl).2, by decide⟩

/-- The bounds of the text: empty, and MAX_SCROLL_CHARS characters; used by the three statements about runs of steps. -/
theorem witness_OnceScrollFinishesAfterWidthSteps :
    (st (some (mx 1 .active))).inst = some (mx 1 .active) ∧ (mx 1 .active).mode = .matrix ∧
    ([] : List Char).length ≤ min 255 (cfg 7).maxScrollChars ∧ ['I', 'L'].length ≤ min 255 (cfg 7).maxScrollChars := by decide

theorem witness_LoopScrollWrapsAtTheWidth :
    (st (some (mx 1 .uninitialized))).inst = some (mx 1 .uninitialized) ∧ (mx 1 .uninitialized).mode = .matrix ∧
    ([] : List Char).length ≤ min 255 (cfg 7).maxScrollChars ∧ ['I', 'L'].length ≤ min 255 (cfg 7).maxScrollChars ∧
    ['I', 'L'] ≠ [] := by decide

/-- "I" fits a chain of one device exactly (M = 0), "IL" does not (M = 9). -/
theorem witness_BounceScrollGoesBackAndForth :
    (st (some (mx 1 .active))).inst = some (mx 1 .active) ∧ (mx 1 .active).mode = .matrix ∧
    ['I', 'L'].length ≤ min 255 (cfg 7).maxScrollChars ∧ stripWidth (cfg 7) ['I'] ≤ 8 * (mx 1 .active).n ∧
    8 * (mx 1 .active).n < stripWidth (cfg 7) ['I', 'L'] := by decide

theorem witness_ScrollFinishedAnswersTheFlag :
    (dg .active).mode = .digit ∧ ((mx 1 .active).mode = .matrix ∧ (mx 1 .active).scroll = none) ∧
    (st (some (mx 1 .active [] (some (il .bounce 9))))).inst = some (mx 1 .active [] (some (il .bounce 9))) ∧
    ((il .bounce 9).Inv (cfg 7) 1 ∧ (il .bounce 9).tmode ≠ .once) :=
  ⟨rfl, ⟨rfl, rfl⟩, rfl, (scroll_inst_inv.scroll_inv _ rfl).2, by decide⟩

theorem witness_ScrollStopDiscardsTheScroll :
    ((st (some (dg .active))).inst = some (dg .active) ∧ (dg .active).mode = .digit) ∧
    (st (some (mx 1 .active [] (some (il .loop 3))))).inst = some (mx 1 .active [] (some (il .loop 3))) ∧
    (mx 1 .active [] (some (il .loop 3))).mode = .matrix := by decide

theorem witness_EveryStepKeepsTheInvariant :
    (st (some (Inst.fresh 2 .matrix))).Inv ∧ ∃ t, step (st (some (Inst.fresh 2 .matrix))) = .next t :=
  ⟨run_state_inv .matrix, _, rfl⟩

theorem witness_UnusedDigitPositionsStayZero :
    ({ st (some (Inst.fresh 2 .digit)) with cfg := cfg 3, inbox := [[0x26]] } : State).Inv ∧
    (∃ t j, step { st (some (Inst.fresh 2 .digit)) with cfg := cfg 3, inbox := [[0x26]] } = .next t ∧ t.inst = some j ∧
      j.mode = .digit) ∧ (cfg 3).digitCount ≤ 4 ∧ 7 < 8 :=
  ⟨⟨fun _ h => by cases h; exact ⟨by decide, by decide, rfl, fun _ h => (by cases h), fun _ h => by cases h⟩,
    fun _ _ => rfl, fun h => by cases h⟩, ⟨_, _, rfl, rfl, rfl⟩, by decide, by decide⟩

theorem witness_ResultBytesHaveTheLengthOfTheTagMap :
    ∃ t, exec (.getRow 0 7) (st (some (dg .active))) = .next t ∧ t.inst = some (dg .active) ∧
      t.responses = (st (some (dg .active))).responses ++ [.ok [0x00]] := ⟨_, rfl, rfl, rfl⟩

/-- Each error kind is raised. -/
theorem witness_ErrorsFollowTheStatusTable :
    (∃ t, exec (.new 0 .digit) (st none) = .next t ∧ t.responses = [.error .zeroLengthChain]) ∧
    (∃ t, exec (.getRow 2 0) (st (some (mx 2 .active))) = .next t ∧ t.responses = [.error .indexOutOfRange]) ∧
    (∃ t, exec (.writeBcast .intensity 16) (st (some (mx 2 .active))) = .next t ∧
      t.responses = [.error .intensityOutOfRange]) ∧
    (∃ t, exec .flush (st (some (mx 2 .uninitialized))) = .next t ∧ t.responses = [.error .notInitialized]) ∧
    (∃ t, exec (.glyphForStrict 'A') (st (some (mx 2 .active))) = .next t ∧
      t.responses = [.error .unsupportedCharacter]) ∧
    (∃ t, exec (.writeBcast .noOp 0) (st (some (mx 2 .active)) [.err 3]) = .next t ∧
      t.responses = [.error (.transportFailure 3)]) :=
  ⟨⟨_, rfl, rfl⟩, ⟨_, rfl, rfl⟩, ⟨_, rfl, rfl⟩, ⟨_, rfl, rfl⟩, ⟨_, rfl, rfl⟩, ⟨_, rfl, rfl⟩⟩

/-- A `FLUSH` and a `PCLEAR` whose second transfer fails. -/
theorem witness_TransportFailureLeavesWhatR229Says :
    (∃ t, exec .flush (st (some (mx 2 .active)) [.ok, .err 3]) = .next t ∧
      t.responses = [.error (.transportFailure 3)]) ∧
    (∃ t, exec .pclear (st (some (mx 2 .active [(3, 0x55)])) [.ok, .err 3]) = .next t ∧
      t.responses = [.error (.transportFailure 3)]) :=
  ⟨⟨_, rfl, rfl⟩, ⟨_, rfl, rfl⟩⟩

theorem witness_TheTranscriptGrowsByWholeTransactions :
    (st (some (mx 2 .active))).inst = some (mx 2 .active) ∧ ∃ t, exec .flush (st (some (mx 2 .active))) = .next t :=
  ⟨rfl, _, rfl⟩

theorem witness_OnlyEmittingCommandsReachTheHost :
    Instr.bclear.emits = false ∧ ∃ t, exec .bclear (st (some (mx 2 .active))) = .next t := ⟨rfl, _, rfl⟩

theorem witness_CountModeAndConfigurationAreFixed :
    (st (some (mx 2 .active))).inst = some (mx 2 .active) ∧
    ∃ t, step { st (some (mx 2 .active)) with inbox := [[0x13]] } = .next t := ⟨rfl, _, rfl⟩

/-- A failing `FLUSH`, an `INIT` that completes, and a command that keeps the phase. -/
theorem witness_ThePhaseChangesOnlyByInitAndTransportFailure :
    (∃ t j, exec .flush (st (some (mx 2 .active)) [.err 3]) = .next t ∧ t.inst = some j ∧
      t.responses = [.error (.transportFailure 3)]) ∧
    (∃ t j, exec .init (st (some (mx 2 .uninitialized))) = .next t ∧ t.inst = some j ∧ t.responses = [.ok []]) ∧
    (∃ t j, exec .pclear (st (some (mx 2 .uninitialized))) = .next t ∧ t.inst = some j ∧ t.responses = [.ok []]) :=
  ⟨⟨_, _, rfl, rfl, rfl⟩, ⟨_, _, rfl, rfl, rfl⟩, ⟨_, _, rfl, rfl, rfl⟩⟩

theorem witness_UngatedCommandsDoNotReadThePhase :
    (Instr.scrollStep.emits = false ∧ ∀ n mode, Instr.scrollStep ≠ .new n mode) ∧
    ((st (some (mx 2 .uninitialized))).inst = some (mx 2 .uninitialized) ∧
      (mx 2 .uninitialized).phase = .uninitialized) := ⟨⟨rfl, by simp⟩, rfl, rfl⟩

/-- `PCLEAR` in `Uninitialized`: device 1's slot of the last frame holds `Digit7`. -/
theorem witness_BeforeInitOnlyDigitRegistersAreWritten :
    (st (some (mx 2 .uninitialized))).inst = some (mx 2 .uninitialized) ∧ (mx 2 .uninitialized).phase = .uninitialized ∧
    Instr.pclear ≠ .init ∧
    ∃ t, exec .pclear (st (some (mx 2 .uninitialized))) = .next t ∧
      t.transcript = (st (some (mx 2 .uninitialized))).transcript ++ t.transcript ∧
      Event.transfer [8, 0, 8, 0] .ok ∈ t.transcript ∧ 1 < (mx 2 .uninitialized).n ∧
      ([8, 0, 8, 0] : Frame)[2 * 1]? = some 8 := by
  refine ⟨rfl, rfl, by simp, _, rfl, rfl, ?_, by decide, rfl⟩
  decide

theorem witness_InitSetsFiveRegistersAndNoDigit :
    (st (some (dg .uninitialized))).inst = some (dg .uninitialized) ∧ 0 < (dg .uninitialized).n ∧ 7 < 8 ∧
    ∃ t, exec .init (st (some (dg .uninitialized))) = .next t ∧ t.responses = [.ok []] :=
  ⟨rfl, by decide, by decide, _, rfl, rfl⟩

theorem witness_AfterFlushTheChainAgreesWithTheBuffer :
    (st (some (mx 2 .active [(8, 0x80)]))).inst = some (mx 2 .active [(8, 0x80)]) ∧ 1 < (mx 2 .active [(8, 0x80)]).n ∧
    7 < rows (cfg 7) (mx 2 .active [(8, 0x80)]).mode ∧
    ∃ t, exec .flush (st (some (mx 2 .active [(8, 0x80)]))) = .next t ∧ t.responses = [.ok []] :=
  ⟨rfl, by decide, by decide, _, rfl, rfl⟩

theorem witness_WarmResetGivesAnActiveClearedBlock :
    ((st (some (mx 2 .uninitialized))).inst = some (mx 2 .uninitialized) ∧ (mx 2 .uninitialized).mode = .matrix) ∧
    (st (some (mx 2 .uninitialized))).HostOk 13 ∧
    ((st (some (dg .active))).inst = some (dg .active) ∧ (dg .active).mode ≠ .matrix) ∧ (st (some (dg .active))).HostOk 13 :=
  ⟨⟨rfl, rfl⟩, hostOk_of_replicate _ (by decide) rfl, ⟨rfl, by decide⟩, hostOk_of_replicate _ (by decide) rfl⟩

end Sys2Proof.Tests
end

section
/-! SUPPORT. Proofs about records and the step (00_scope.md R4, R5, R12). -/

namespace Sys2Proof.Machine

/-- The record taken is the first one waiting, and it alone leaves the queue (00_scope.md R4, log 1). -/
theorem takeRecord_of_inbox_cons {s : State} {rec : Record} {rest : List Record} (h : s.inbox = rec :: rest) :
    takeRecord s = some (rec, { s with inbox := rest }) := by
  simp only [takeRecord, h]

/-- Settles O1: the record taken is `rec`, and its decoding selects the branch of the step that runs a command. -/
theorem stepRunsTheDecodedCommand : Obligations.StepRunsTheDecodedCommand := by
  intro s rec rest i hinbox hdecode
  simp only [step, takeRecord_of_inbox_cons hinbox, hdecode]

/-- Settles O2: the record taken is `rec`, and its decoding selects the branch of the step that refuses. -/
theorem stepRefusesARecordThatSpellsNoCommand : Obligations.StepRefusesARecordThatSpellsNoCommand := by
  intro s rec rest r hinbox hdecode
  simp only [step, takeRecord_of_inbox_cons hinbox, hdecode]

end Sys2Proof.Machine
end

section
/-! SUPPORT. What a step and the shared operations leave of a state: the constructed block, its phase and the invariant (10_state.md
R22-R29, 20_memory.md R51, R60). -/

namespace Sys2Proof.Machine

/-! ### The step -/

/-- The inversion lemma of `step`: no record waits and nothing changes, or one record leaves the
queue and its command runs. -/
theorem step_next {s t : State} (h : step s = .next t) :
    (s.inbox = [] ∧ t = s) ∨
    ∃ rec rest i, s.inbox = rec :: rest ∧ decode rec = .ok i ∧ exec i { s with inbox := rest } = .next t := by
  cases hinbox : s.inbox with
  | nil =>
    simp only [step, takeRecord, hinbox, Host.Outcome.next.injEq] at h
    exact .inl ⟨rfl, h.symm⟩
  | cons rec rest =>
    cases hdecode : decode rec with
    | ok i => exact .inr ⟨rec, rest, i, rfl, hdecode, stepRunsTheDecodedCommand s rec rest i hinbox hdecode ▸ h⟩
    | error r => simp [stepRefusesARecordThatSpellsNoCommand s rec rest r hinbox hdecode] at h

/-! ### The block around the frames of a command -/

@[simp] theorem atEmit_n (i : Instr) (inst : Inst) : (atEmit i inst).n = inst.n := by
  unfold atEmit; split <;> rfl

@[simp] theorem atEmit_mode (i : Instr) (inst : Inst) : (atEmit i inst).mode = inst.mode := by
  unfold atEmit; split <;> rfl

@[simp] theorem atEmit_phase (i : Instr) (inst : Inst) : (atEmit i inst).phase = inst.phase := by
  unfold atEmit; split <;> rfl

@[simp] theorem afterEmit_cfg (i : Instr) (s : State) : (afterEmit i s).cfg = s.cfg := by
  unfold afterEmit; split <;> rfl

@[simp] theorem afterEmit_responses (i : Instr) (s : State) : (afterEmit i s).responses = s.responses := by
  unfold afterEmit; split <;> rfl

/-- After its last frame `INIT` has made the phase `Active`, every other command leaves the block as it was (10_state.md R24). -/
theorem afterEmit_inst {i : Instr} {s : State} {inst : Inst} (h : s.inst = some inst) :
    (afterEmit i s).inst = some { inst with phase := if i = .init then .active else inst.phase } := by
  unfold afterEmit; split <;> simp [h]

/-! ### What every command leaves of the configuration and the block -/

/-- No command writes the configuration (10_state.md R33). -/
theorem exec_cfg {i : Instr} {s t : State} (h : exec i s = .next t) : t.cfg = s.cfg := by
  cases exec_case h with
  | same r ht => simp [ht]
  | construct n mode _ _ _ _ ht => simp [ht]
  | write inst j _ _ _ _ _ ht => simp [ht]
  | emit inst fs _ _ _ _ _ ht => rcases ht with ⟨_, rfl⟩ | ⟨_, _, _, _, rfl⟩ <;> simp

/-- No command takes the constructed block away or changes its device count or mode (10_state.md R23, R25). -/
theorem exec_inst {i : Instr} {s t : State} {inst : Inst} (hs : s.inst = some inst) (h : exec i s = .next t) :
    ∃ j, t.inst = some j ∧ j.n = inst.n ∧ j.mode = inst.mode := by
  cases exec_case h with
  | same r ht => exact ⟨inst, by simpa [ht] using hs, rfl, rfl⟩
  | construct n mode _ hnone => simp [hs] at hnone
  | write inst' j _ hs' hn hm _ ht =>
    obtain rfl : inst = inst' := by simpa [hs] using hs'
    exact ⟨j, by simp [ht], hn, hm⟩
  | emit inst' fs _ hs' _ _ _ ht =>
    obtain rfl : inst = inst' := by simpa [hs] using hs'
    rcases ht with ⟨_, rfl⟩ | ⟨_, _, _, _, rfl⟩
    · exact ⟨_, afterEmit_inst rfl, atEmit_n i inst, atEmit_mode i inst⟩
    · exact ⟨_, rfl, atEmit_n i inst, atEmit_mode i inst⟩

/-- `INIT` never raises a local error: it answers Ok, or the host's failure (41_register_protocol.md R110). -/
theorem exec_init_response {s t : State} {r : Response} (h : exec .init s = .next t)
    (hr : t.responses = s.responses ++ [r]) : r = .ok [] ∨ ∃ e, r = .error (.transportFailure e) := by
  obtain ⟨inst, _, h⟩ := withInst_next h
  rcases emitThen_next h with ⟨_, hdone⟩ | ⟨_, e, _, _, rfl⟩
  · simp only [respond_eq, Host.Outcome.next.injEq] at hdone
    subst hdone
    exact .inl (by simpa [eq_comm] using hr)
  · exact .inr ⟨e, by simpa [eq_comm] using hr⟩

/-! ### Admission -/

/-- In `Unconstructed` every command but `NEW` is refused (10_state.md R22, 30_encoding.md R88 (d)). -/
theorem exec_unconstructed {i : Instr} {s : State} (hs : s.inst = none) (hi : ∀ n mode, i ≠ .new n mode) :
    exec i s = .refused .unconstructed := by
  cases i with
  | new n mode => exact absurd rfl (hi n mode)
  | setPixel | getPixel | setDigit | scrollStart | scrollStep | scrollFinished | scrollStop => exact inMode_none hs _ _
  | _ => exact withInst_none hs _

/-- In `Unconstructed` a `NEW` of at most MAX_DEVICES devices is answered (42_chain_topology.md R130). -/
theorem exec_new_admitted {n : Byte} {mode : Mode} {s : State} (hs : s.inst = none) (hn : n.toNat ≤ s.cfg.maxDevices) :
    ∃ t, exec (.new n mode) s = .next t := by
  by_cases h0 : n.toNat = 0
  · exact ⟨s.answer (.error .zeroLengthChain), by simp [exec, execNew, hs, h0]⟩
  · exact ⟨(s.setInst (Inst.fresh n.toNat mode)).answer (.ok []), by simp [exec, execNew, hs, h0, Nat.not_lt.2 hn]⟩

/-- In `Constructed` a `NEW` is refused (30_encoding.md R88 (d)). -/
theorem exec_new_constructed {n : Byte} {mode : Mode} {s : State} {inst : Inst} (hs : s.inst = some inst) :
    exec (.new n mode) s = .refused .alreadyConstructed := by
  simp [exec, execNew, hs]

/-! ### What keeps the invariant -/

/-- The block `NEW` constructs is legal (10_state.md R23, R31). -/
theorem Inst.Inv.fresh {c : Config} {n : Nat} (mode : Mode) (h1 : 1 ≤ n) (h2 : n ≤ c.maxDevices) :
    (Inst.fresh n mode).Inv c :=
  ⟨h1, h2, rfl, by simp, by simp⟩

/-- The phase is no part of what makes a block legal. -/
theorem Inst.Inv.withPhase {c : Config} {inst : Inst} (h : inst.Inv c) (p : Phase) :
    ({ inst with phase := p } : Inst).Inv c :=
  ⟨h.n_pos, h.n_le, h.buf_wf, h.buf_in, h.scroll_inv⟩

/-- The block a command sends its first frame with is legal: the zeroed buffer of `PCLEAR` holds no cell. -/
theorem Inst.Inv.atEmit {c : Config} {inst : Inst} (h : inst.Inv c) (i : Instr) : (atEmit i inst).Inv c := by
  unfold Machine.atEmit
  split
  · exact inv_write (fun _ => rfl) (by simp) h
  · exact h

/-- Which records wait is no part of the invariant. -/
theorem State.Inv.withInbox {s : State} (h : s.Inv) (rest : List Record) : ({ s with inbox := rest } : State).Inv :=
  ⟨h.inst_inv, h.transcript_framed, h.transcript_empty⟩

theorem State.Inv.answer {s : State} (h : s.Inv) (r : Response) : (s.answer r).Inv :=
  ⟨h.inst_inv, h.transcript_framed, h.transcript_empty⟩

/-- A legal block of the same device count may take the block's place. -/
theorem State.Inv.setInst {s : State} {inst j : Inst} (h : s.Inv) (hs : s.inst = some inst) (hn : j.n = inst.n)
    (hj : j.Inv s.cfg) : (s.setInst j).Inv where
  inst_inv _ hi := by obtain rfl := Option.some.inj hi; exact hj
  transcript_framed _ hi := by obtain rfl := Option.some.inj hi; exact hn ▸ h.transcript_framed inst hs
  transcript_empty hi := by simp at hi

/-- A legal block may be constructed: the empty transcript is one of whole transactions for every device count. -/
theorem State.Inv.construct {s : State} {j : Inst} (h : s.Inv) (hs : s.inst = none) (hj : j.Inv s.cfg) :
    (s.setInst j).Inv where
  inst_inv _ hi := by obtain rfl := Option.some.inj hi; exact hj
  transcript_framed _ _ := by rw [State.setInst_transcript, h.transcript_empty hs]; rfl
  transcript_empty hi := by simp at hi

theorem State.Inv.setPhase {s : State} {inst : Inst} (h : s.Inv) (hs : s.inst = some inst) (p : Phase) :
    (s.setPhase p).Inv := by
  rw [State.setPhase_eq_setInst hs]
  exact h.setInst hs rfl ((h.inst_inv inst hs).withPhase p)

/-- Frames of `2·N` bytes may be sent (20_memory.md R60). -/
theorem State.Inv.sent {s : State} {inst : Inst} {fs : List Frame} (h : s.Inv) (hs : s.inst = some inst)
    (hf : ∀ f ∈ fs, f.length = 2 * inst.n) : (s.sent fs).Inv where
  inst_inv := h.inst_inv
  transcript_framed i hi := by
    obtain rfl : inst = i := by simpa [hs] using hi
    exact framed_append (h.transcript_framed inst hs) (framed_eventsOf s hf)
  transcript_empty hi := by simp [hs] at hi

theorem State.Inv.afterEmit {s : State} {inst : Inst} (h : s.Inv) (hs : s.inst = some inst) (i : Instr) :
    (afterEmit i s).Inv := by
  unfold Machine.afterEmit
  split
  · exact h.setPhase hs _
  · exact h

/-- Every command keeps the invariant. -/
theorem exec_inv {i : Instr} {s t : State} (hI : s.Inv) (h : exec i s = .next t) : t.Inv := by
  cases exec_case h with
  | same r ht => exact ht ▸ hI.answer r
  | construct n mode _ hs h1 h2 ht => exact ht ▸ (hI.construct hs (.fresh mode h1 h2)).answer _
  | write inst j _ hs hn _ _ ht hj => exact ht ▸ (hI.setInst hs hn (hj (hI.inst_inv inst hs))).answer _
  | emit inst fs _ hs hf _ _ ht =>
    have hI' : (s.setInst (atEmit i inst)).Inv := hI.setInst hs (atEmit_n i inst) ((hI.inst_inv inst hs).atEmit i)
    have hsent : ∀ gs : List Frame, gs ⊆ fs → ((s.setInst (atEmit i inst)).sent gs).Inv := fun gs hgs =>
      hI'.sent rfl fun f hfg => by simpa using hf f (hgs hfg)
    rcases ht with ⟨_, rfl⟩ | ⟨k, e, _, _, rfl⟩
    · exact ((hsent fs fun _ => id).afterEmit rfl i).answer _
    · exact ((hsent _ (List.take_subset _ _)).setPhase rfl _).answer _

/-- A digit-mode byte at a position not in use is 0x00 in every legal block (10_state.md R27): no cell of the buffer has
such an address, and an unlisted byte reads as 0x00. -/
theorem Inst.Inv.byteAt_unused {c : Config} {inst : Inst} (h : inst.Inv c) (hm : inst.mode = .digit) {d r : Nat}
    (hr : c.digitCount ≤ r) (hr8 : r < 8) : inst.byteAt d r = 0x00#8 := by
  by_contra hne
  have hin : bufAddr d r % 8 < rows c inst.mode := (h.buf_in _ (Memory.mem_of_read hne)).2
  simp only [bufAddr, hm, rows] at hin
  omega

end Sys2Proof.Machine
end

section
/-! SUPPORT. Proofs about the state: the invariant of a run, and what never changes (10_state.md R22-R33). -/

namespace Sys2Proof.Machine

/-- Settles O43: a step without a record changes nothing, and every command keeps the invariant (`exec_inv`). -/
theorem everyStepKeepsTheInvariant : Obligations.EveryStepKeepsTheInvariant := by
  intro s t hI h
  rcases step_next h with ⟨_, rfl⟩ | ⟨rec, rest, i, _, _, hexec⟩
  · exact hI
  · exact exec_inv (hI.withInbox rest) hexec

/-- Settles O51: every command keeps the configuration (`exec_cfg`) and the block's count and mode (`exec_inst`). -/
theorem countModeAndConfigurationAreFixed : Obligations.CountModeAndConfigurationAreFixed := by
  intro s t h
  rcases step_next h with ⟨_, rfl⟩ | ⟨rec, rest, i, _, _, hexec⟩
  · exact ⟨rfl, fun inst hs => ⟨inst, hs, rfl, rfl⟩⟩
  · exact ⟨exec_cfg (s := { s with inbox := rest }) hexec, fun inst hs => exec_inst (s := { s with inbox := rest }) hs hexec⟩

/-- Settles O44: the next state meets the invariant (O43) for the same configuration (O51). -/
theorem unusedDigitPositionsStayZero : Obligations.UnusedDigitPositionsStayZero := by
  intro s t inst hI h ht hm d r hr hr8
  have hinst : inst.Inv t.cfg := (everyStepKeepsTheInvariant s t hI h).inst_inv inst ht
  rw [(countModeAndConfigurationAreFixed s t h).1] at hinst
  exact hinst.byteAt_unused hm hr hr8

/-- Settles O52, by the cases of what a command can do. -/
theorem thePhaseChangesOnlyByInitAndTransportFailure : Obligations.ThePhaseChangesOnlyByInitAndTransportFailure := by
  intro i s t inst j r hs h hj hr
  cases exec_case h with
  | same r' ht hlocal herr =>
    obtain rfl : r' = r := by simpa [ht] using hr
    obtain rfl : inst = j := by simpa [ht, hs] using hj
    refine ⟨fun e he => absurd he (hlocal e), fun _ hinit => ?_, fun _ _ => rfl⟩
    subst hinit
    obtain ⟨k, rfl⟩ := herr rfl
    rcases exec_init_response h hr with hok | ⟨e, he⟩
    · cases hok
    · exact absurd he (hlocal e)
  | construct n mode _ hnone => simp [hs] at hnone
  | write inst' j' hemits hs' _ _ hp ht =>
    obtain rfl : inst = inst' := by simpa [hs] using hs'
    obtain rfl : r = .ok [] := by simpa [ht, eq_comm] using hr
    obtain rfl : j' = j := by simpa [ht] using hj
    exact ⟨by simp, fun _ hinit => by simp [hinit, Instr.emits] at hemits, fun _ _ => hp⟩
  | emit inst' fs _ hs' _ _ _ ht =>
    obtain rfl : inst = inst' := by simpa [hs] using hs'
    rcases ht with ⟨_, rfl⟩ | ⟨_, e, _, _, rfl⟩
    · obtain rfl : r = .ok [] := by simpa [eq_comm] using hr
      rw [State.answer_inst, afterEmit_inst rfl, Option.some.injEq] at hj
      subst hj
      exact ⟨by simp, fun _ hinit => by simp [hinit], fun _ hinit => by simp [hinit]⟩
    · obtain rfl : r = .error (.transportFailure e) := by simpa [eq_comm] using hr
      obtain rfl := Option.some.inj hj
      exact ⟨fun _ _ => rfl, fun hne => absurd rfl (hne e), fun hne => absurd rfl (hne e)⟩

/-- Settles O9: `exec` in `Unconstructed` and in `Constructed`. -/
theorem onlyNewIsAdmittedBeforeConstruction : Obligations.OnlyNewIsAdmittedBeforeConstruction := by
  refine fun i s => ⟨fun hs hi => ⟨_, exec_unconstructed hs hi⟩, ?_, ?_⟩
  · rintro n mode hs rfl hn
    exact exec_new_admitted hs hn
  · rintro inst n mode hs rfl
    exact ⟨_, exec_new_constructed hs⟩

end Sys2Proof.Machine
end

section
/-! SUPPORT. Where an outcome can be a fault: nowhere but in an access, and every access a command makes is inside the buffer
(20_memory.md R51). -/

namespace Sys2Proof.Machine

/-- The outcome is no fault. -/
def NeverFaults (o : Outcome) : Prop := ∀ f, o ≠ .fault f

/-! ### The shared operations -/

@[simp] theorem neverFaults_next (s : State) : NeverFaults (.next s) := fun _ => by simp

@[simp] theorem neverFaults_refused (r : Refusal) : NeverFaults (.refused r) := fun _ => by simp

theorem neverFaults_withInst {s : State} {k : Inst → Outcome} (hk : ∀ inst, NeverFaults (k inst)) :
    NeverFaults (withInst s k) := by
  cases hs : s.inst with
  | none => simp [withInst_none hs]
  | some inst => rw [withInst_some hs]; exact hk inst

theorem neverFaults_inMode {m : Mode} {s : State} {k : Inst → Outcome} (hk : ∀ inst, NeverFaults (k inst)) :
    NeverFaults (inMode m s k) := by
  refine neverFaults_withInst fun inst => ?_
  split
  · exact hk inst
  · exact neverFaults_refused _

theorem neverFaults_withScroll {inst : Inst} {k : ScrollState → Outcome} (hk : ∀ st, NeverFaults (k st)) :
    NeverFaults (withScroll inst k) := by
  unfold withScroll
  split
  · exact neverFaults_refused _
  · exact hk _

theorem neverFaults_requireActive {inst : Inst} {s : State} {k : Outcome} (hk : NeverFaults k) :
    NeverFaults (requireActive inst s k) := by
  unfold requireActive
  split
  · exact neverFaults_next _
  · exact hk

/-- A failing transfer ends the command with a response, not with a fault (60_exceptions.md R229). -/
theorem neverFaults_emitThen {fs : List Frame} {s : State} {k : State → Outcome} (hk : ∀ s', NeverFaults (k s')) :
    NeverFaults (emitThen fs s k) := by
  unfold emitThen
  split
  · exact hk _
  · exact neverFaults_next _

/-- An operand pair that passes the bounds check of its command names a byte of the buffer, in either mode. -/
theorem bufAddr_lt_of_inUse {c : Config} {m : Mode} {n d r : Nat} (h : ¬ (n ≤ d ∨ rows c m ≤ r)) :
    bufAddr d r < 8 * n := by
  have := rows_le c m
  exact bufAddr_lt (by omega) (by omega)

/-! ### The commands that access the buffer -/

theorem neverFaults_execSetPixel (dev row col : Byte) (on : Bool) (s : State) :
    NeverFaults (execSetPixel dev row col on s) := by
  refine neverFaults_inMode fun inst => ?_
  split
  · exact neverFaults_next _
  · have ha : bufAddr dev.toNat row.toNat < 8 * inst.n := bufAddr_lt (by omega) (by omega)
    simp [memRead_ok ha, memWrite_ok ha]

theorem neverFaults_execGetPixel (dev row col : Byte) (s : State) : NeverFaults (execGetPixel dev row col s) := by
  refine neverFaults_inMode fun inst => ?_
  split
  · exact neverFaults_next _
  · have ha : bufAddr dev.toNat row.toNat < 8 * inst.n := bufAddr_lt (by omega) (by omega)
    simp [memRead_ok ha]

theorem neverFaults_execSetDigit (dev pos : Byte) (ch : Char) (dp : Bool) (s : State) :
    NeverFaults (execSetDigit dev pos ch dp s) := by
  refine neverFaults_inMode fun inst => ?_
  split
  case isTrue => exact neverFaults_next _
  case isFalse hin => simp [memWrite_ok (bufAddr_lt_of_inUse hin)]

/-- The block ends at row `roff + len` of its device at most, which is row 8 at most; an empty one accesses nothing. -/
theorem neverFaults_execWriteGlyph (dev roff : Byte) (bitmap : List Byte) (s : State) :
    NeverFaults (execWriteGlyph dev roff bitmap s) := by
  refine neverFaults_withInst fun inst => ?_
  split
  · exact neverFaults_next _
  · have hrows := rows_le s.cfg inst.mode
    have hend : bufAddr dev.toNat roff.toNat + bitmap.length ≤ 8 * inst.n := by unfold bufAddr; omega
    simp [memWriteBlock_ok (.inr hend)]

theorem neverFaults_execGetRow (dev row : Byte) (s : State) : NeverFaults (execGetRow dev row s) := by
  refine neverFaults_withInst fun inst => ?_
  split
  case isTrue => exact neverFaults_next _
  case isFalse hin => simp [memRead_ok (bufAddr_lt_of_inUse hin)]

/-- The rows a flush reads are those in use, eight at most (43_display_buffer.md R150). -/
theorem neverFaults_execFlush (s : State) : NeverFaults (execFlush s) := by
  refine neverFaults_withInst fun inst => neverFaults_requireActive ?_
  have hrows : 0 + rows s.cfg inst.mode ≤ 8 := by simpa using rows_le s.cfg inst.mode
  rw [readFrames_ok hrows, access_ok]
  exact neverFaults_emitThen fun _ => neverFaults_next _

/-- The window has the rows of the chain's own devices (45_scroll_engine.md R201). -/
theorem neverFaults_execScrollStep (s : State) : NeverFaults (execScrollStep s) := by
  refine neverFaults_inMode fun inst => neverFaults_withScroll fun st => ?_
  split
  · exact neverFaults_next _
  · obtain ⟨m, hwindow, -⟩ := writeWindow_ok s.cfg (advance inst.n st) (d := 0) (k := inst.n)
      (inst := { inst with scroll := some (advance inst.n st) }) (by simp)
    simp [hwindow]

/-! ### Every command -/

theorem neverFaults_execNew (n : Byte) (mode : Mode) (s : State) : NeverFaults (execNew n mode s) := by
  unfold execNew
  split
  · exact neverFaults_refused _
  · split
    · exact neverFaults_refused _
    · split <;> exact neverFaults_next _

theorem neverFaults_execWriteOne (dev : Byte) (reg : Register) (val : Byte) (s : State) :
    NeverFaults (execWriteOne dev reg val s) := by
  refine neverFaults_withInst fun inst => ?_
  split
  · exact neverFaults_next _
  · split
    · exact neverFaults_next _
    · exact neverFaults_requireActive (neverFaults_emitThen fun _ => neverFaults_next _)

theorem neverFaults_broadcast (reg : Register) (val : Byte) (s : State) : NeverFaults (broadcast reg val s) := by
  refine neverFaults_withInst fun inst => ?_
  split
  · exact neverFaults_next _
  · exact neverFaults_requireActive (neverFaults_emitThen fun _ => neverFaults_next _)

theorem neverFaults_execWriteAll (reg : Register) (vals : List Byte) (s : State) :
    NeverFaults (execWriteAll reg vals s) := by
  refine neverFaults_withInst fun inst => ?_
  split
  · exact neverFaults_refused _
  · split
    · exact neverFaults_next _
    · exact neverFaults_requireActive (neverFaults_emitThen fun _ => neverFaults_next _)

theorem neverFaults_execGlyphForStrict (ch : Char) (s : State) : NeverFaults (execGlyphForStrict ch s) := by
  refine neverFaults_withInst fun inst => ?_
  split <;> exact neverFaults_next _

theorem neverFaults_execScrollStart (tmode : TMode) (chars : List Char) (s : State) :
    NeverFaults (execScrollStart tmode chars s) := by
  refine neverFaults_inMode fun inst => ?_
  split
  · exact neverFaults_refused _
  · exact neverFaults_next _

/-- No command faults, whatever the state it runs in. -/
theorem neverFaults_exec (i : Instr) (s : State) : NeverFaults (exec i s) := by
  cases i with
  | new n mode => exact neverFaults_execNew n mode s
  | deviceCount | bclear | glyphFor => exact neverFaults_withInst fun _ => neverFaults_next _
  | writeOne dev reg val => exact neverFaults_execWriteOne dev reg val s
  | writeBcast reg val => exact neverFaults_broadcast reg val s
  | setIntensity v => exact neverFaults_broadcast .intensity v s
  | writeAll reg vals => exact neverFaults_execWriteAll reg vals s
  | init | pclear => exact neverFaults_withInst fun _ => neverFaults_emitThen fun _ => neverFaults_next _
  | setPixel dev row col on => exact neverFaults_execSetPixel dev row col on s
  | getPixel dev row col => exact neverFaults_execGetPixel dev row col s
  | setDigit dev pos ch dp => exact neverFaults_execSetDigit dev pos ch dp s
  | writeGlyph dev roff bitmap => exact neverFaults_execWriteGlyph dev roff bitmap s
  | getRow dev row => exact neverFaults_execGetRow dev row s
  | flush => exact neverFaults_execFlush s
  | glyphForStrict ch => exact neverFaults_execGlyphForStrict ch s
  | scrollStart tmode chars => exact neverFaults_execScrollStart tmode chars s
  | scrollStep => exact neverFaults_execScrollStep s
  | scrollFinished => exact neverFaults_inMode fun _ => neverFaults_withScroll fun _ => neverFaults_next _
  | scrollStop => exact neverFaults_inMode fun _ => neverFaults_next _

end Sys2Proof.Machine
end

section
/-! SUPPORT. Proofs about the memory and the transcript (20_memory.md R51, R56, R60). -/

namespace Sys2Proof.Machine

@[simp] theorem afterEmit_transcript (i : Instr) (s : State) : (afterEmit i s).transcript = s.transcript := by
  unfold afterEmit; split <;> rfl

/-- Settles O42: a step does nothing, refuses its record, or runs a command, and no command faults (`neverFaults_exec`). -/
theorem noStepAccessesOutsideTheBuffer : Obligations.NoStepAccessesOutsideTheBuffer := by
  intro s
  change NeverFaults (step s)
  cases hinbox : s.inbox with
  | nil => simp [step, takeRecord, hinbox]
  | cons rec rest =>
    cases hdecode : decode rec with
    | ok i => rw [stepRunsTheDecodedCommand s rec rest i hinbox hdecode]; exact neverFaults_exec i _
    | error r => rw [stepRefusesARecordThatSpellsNoCommand s rec rest r hinbox hdecode]; exact neverFaults_refused _

/-- Settles O49: the events added are none, or those of frames of `2·N` bytes: all the command's, or those up to the first
one the host fails. -/
theorem theTranscriptGrowsByWholeTransactions : Obligations.TheTranscriptGrowsByWholeTransactions := by
  intro i s t inst hs h
  cases exec_case h with
  | same r ht => exact ⟨[], by simp [ht], rfl⟩
  | construct n mode _ _ _ _ ht => exact ⟨[], by simp [ht], rfl⟩
  | write inst' j _ _ _ _ _ ht => exact ⟨[], by simp [ht], rfl⟩
  | emit inst' fs _ hs' hf _ _ ht =>
    obtain rfl : inst = inst' := by simpa [hs] using hs'
    have hframed : ∀ gs : List Frame, gs ⊆ fs → framed inst.n ((s.setInst (atEmit i inst)).eventsOf gs) = true :=
      fun gs hgs => framed_eventsOf _ fun f hfg => hf f (hgs hfg)
    rcases ht with ⟨_, rfl⟩ | ⟨k, e, _, _, rfl⟩
    · exact ⟨_, by simp, hframed fs fun _ => id⟩
    · exact ⟨_, rfl, hframed _ (List.take_subset _ _)⟩

/-- Settles O50: of what a command can do, only the case of an emitting command touches the transcript or the host's results. -/
theorem onlyEmittingCommandsReachTheHost : Obligations.OnlyEmittingCommandsReachTheHost := by
  intro i s t hi h
  cases exec_case h with
  | same r ht => simp [ht]
  | construct n mode _ _ _ _ ht => simp [ht]
  | write inst j _ _ _ _ _ ht => simp [ht]
  | emit inst fs hemits => simp [hi] at hemits

end Sys2Proof.Machine
end

section
/-! SUPPORT. Proofs about the encoding: the record of a command read back, and what the decoder can answer to a record (30_encoding.md
R72, R80-R88). -/

namespace Sys2Proof

/-! ### The record of a command, read back -/

theorem toNat_ofNat_length {α : Type} {xs : List α} (h : xs.length ≤ 255) : (BitVec.ofNat 8 xs.length).toNat = xs.length := by
  rw [BitVec.toNat_ofNat, Nat.mod_eq_of_lt (by omega)]

theorem decodeWriteAll_regCode {reg : Register} {vals : List Byte} (h : valsWf vals = true) :
    decodeWriteAll (regCode reg :: vals) = .ok (.writeAll reg vals) := by
  simp [decodeWriteAll, h, Except.map]

theorem decodeSetDigit_charBytes (dev pos : Byte) (ch : Char) (dp : Bool) :
    decodeSetDigit ([dev, pos] ++ charBytes ch ++ [flagByte dp]) = .ok (.setDigit dev pos ch dp) := by
  simp [decodeSetDigit, charBytes]

/-- A bitmap of at most 255 bytes has its length in the length byte (30_encoding.md R81). -/
theorem decodeWriteGlyph_length {dev roff : Byte} {bitmap : List Byte} (h : bitmapWf bitmap = true) :
    decodeWriteGlyph (dev :: roff :: BitVec.ofNat 8 bitmap.length :: bitmap) = .ok (.writeGlyph dev roff bitmap) := by
  simp only [decodeWriteGlyph, toNat_ofNat_length (of_decide_eq_true h), if_true]

/-- A text of at most 255 characters has its length in the count byte (30_encoding.md R81). -/
theorem decodeScrollStart_flatMap {tmode : TMode} {chars : List Char} (h : charsWf chars = true) :
    decodeScrollStart (tmodeCode tmode :: BitVec.ofNat 8 chars.length :: chars.flatMap charBytes) =
      .ok (.scrollStart tmode chars) := by
  simp only [decodeScrollStart, tmodeOf_tmodeCode, toNat_ofNat_length (of_decide_eq_true h), charsOf_flatMap]

/-- Settles O6, by the layout of each command's record: every operand field is read back as what was written (the lemmas of
Laws/Codec.lean), and the bounds of `wf` make the length bytes exact. -/
theorem decodingAnEncodedCommandGivesItBack : Obligations.DecodingAnEncodedCommandGivesItBack := by
  intro i hwf
  cases i with
  | new n mode => simp [encode, decodeNew, Except.map, Instr.expand]
  | writeOne dev reg val => simp [encode, decodeWriteOne, Except.map, Instr.expand]
  | writeBcast reg val => simp [encode, decodeWriteBcast, Except.map, Instr.expand]
  | setIntensity v => rfl
  | writeAll reg vals => exact decodeWriteAll_regCode hwf
  | setPixel dev row col on => simp [encode, decodeSetPixel, Except.map, Instr.expand]
  | setDigit dev pos ch dp => exact decodeSetDigit_charBytes dev pos ch dp
  | writeGlyph dev roff bitmap => exact decodeWriteGlyph_length hwf
  | glyphFor ch => simp [encode, charBytes, decodeGlyphFor, Except.map, Instr.expand]
  | glyphForStrict ch => simp [encode, charBytes, decodeGlyphForStrict, Except.map, Instr.expand]
  | scrollStart tmode chars => exact decodeScrollStart_flatMap hwf
  | getPixel | getRow => rfl
  | deviceCount | init | pclear | flush | bclear | scrollStep | scrollFinished | scrollStop => rfl

/-! ### Why a field is rejected -/

theorem regOf_error {b : Byte} {r : Reject} (h : regOf b = .error r) : r = .badRegister b := by
  unfold regOf at h
  split at h
  case h_15 => exact (Except.error.inj h).symm
  all_goals cases h

theorem modeOf_error {b : Byte} {r : Reject} (h : modeOf b = .error r) : r = .badMode b := by
  unfold modeOf at h
  split at h
  case h_3 => exact (Except.error.inj h).symm
  all_goals cases h

theorem tmodeOf_error {b : Byte} {r : Reject} (h : tmodeOf b = .error r) : r = .badTMode b := by
  unfold tmodeOf at h
  split at h
  case h_4 => exact (Except.error.inj h).symm
  all_goals cases h

theorem flagOf_error {b : Byte} {r : Reject} (h : flagOf b = .error r) : r = .badFlag b := by
  unfold flagOf at h
  split at h
  case h_3 => exact (Except.error.inj h).symm
  all_goals cases h

theorem charOf_error {c0 c1 c2 c3 : Byte} {r : Reject} (h : charOf c0 c1 c2 c3 = .error r) :
    r = .badChar (assembleChar c0 c1 c2 c3) := by
  unfold charOf at h
  dsimp only at h
  split at h
  · cases h
  · exact (Except.error.inj h).symm

/-- A text is rejected for its length or for one of its characters. -/
theorem charsOf_error {count : Nat} {bs : List Byte} {r : Reject} (h : charsOf count bs = .error r) :
    r = .badLength ∨ ∃ v, r = .badChar v := by
  fun_induction charsOf count bs with
  | case1 => cases h
  | case2 => cases h
  | case3 _ _ _ _ _ _ _ hch => exact .inr ⟨_, charOf_error (Except.error.inj h ▸ hch)⟩
  | case4 _ _ _ _ _ _ _ hcs _ ih => exact ih (Except.error.inj h ▸ hcs)
  | case5 => exact .inl (Except.error.inj h).symm

/-! ### What the decoder can answer -/

/-- What decoding a record with a tag of R82 can give: a command that has this record, or a rejection of its length or of one of
its operands, never of its tag. -/
inductive Reads (bs : Record) : Except Reject Instr → Prop
  | ok (i : Instr) (hencode : encode i = bs) (hwf : i.wf = true) (hexpand : i.expand = i) : Reads bs (.ok i)
  | error (r : Reject) (hr : ∀ tag, r ≠ .reservedTag tag) : Reads bs (.error r)

theorem reads_badLength (bs : Record) : Reads bs (.error .badLength) := .error _ (by simp)

/-- A record with one checked field: `read` is the field's reading, `f` the command for its value. -/
theorem reads_map {α : Type} {bs : Record} {read : Except Reject α} {f : α → Instr}
    (hok : ∀ a, read = .ok a → Reads bs (.ok (f a))) (herror : ∀ r, read = .error r → ∀ tag, r ≠ .reservedTag tag) :
    Reads bs (read.map f) := by
  cases read with
  | ok a => exact hok a rfl
  | error r => exact .error r (herror r rfl)

theorem reads_decodePlain {i : Instr} {tag : Byte} (hencode : encode i = [tag]) (hwf : i.wf = true) (hexpand : i.expand = i)
    (ops : List Byte) : Reads (tag :: ops) (decodePlain i ops) := by
  unfold decodePlain
  split
  · exact .ok i hencode hwf hexpand
  · exact reads_badLength _

theorem reads_decodeNew (ops : List Byte) : Reads (0x01#8 :: ops) (decodeNew ops) := by
  unfold decodeNew
  split
  · exact reads_map (fun mode h => .ok _ (by simp [encode, modeCode_of_modeOf h]) rfl rfl)
      (fun r h => by simp [modeOf_error h])
  · exact reads_badLength _

theorem reads_decodeWriteOne (ops : List Byte) : Reads (0x10#8 :: ops) (decodeWriteOne ops) := by
  unfold decodeWriteOne
  split
  · exact reads_map (fun reg h => .ok _ (by simp [encode, regCode_of_regOf h]) rfl rfl)
      (fun r h => by simp [regOf_error h])
  · exact reads_badLength _

theorem reads_decodeWriteBcast (ops : List Byte) : Reads (0x11#8 :: ops) (decodeWriteBcast ops) := by
  unfold decodeWriteBcast
  split
  · exact reads_map (fun reg h => .ok _ (by simp [encode, regCode_of_regOf h]) rfl rfl)
      (fun r h => by simp [regOf_error h])
  · exact reads_badLength _

theorem reads_decodeWriteAll (ops : List Byte) : Reads (0x12#8 :: ops) (decodeWriteAll ops) := by
  unfold decodeWriteAll
  split
  · split
    case isTrue hvals =>
      exact reads_map (fun reg h => .ok _ (by simp [encode, regCode_of_regOf h]) hvals rfl)
        (fun r h => by simp [regOf_error h])
    case isFalse => exact reads_badLength _
  · exact reads_badLength _

theorem reads_decodeSetPixel (ops : List Byte) : Reads (0x20#8 :: ops) (decodeSetPixel ops) := by
  unfold decodeSetPixel
  split
  · exact reads_map (fun on h => .ok _ (by simp [encode, flagByte_of_flagOf h]) rfl rfl)
      (fun r h => by simp [flagOf_error h])
  · exact reads_badLength _

theorem reads_decodeGetPixel (ops : List Byte) : Reads (0x21#8 :: ops) (decodeGetPixel ops) := by
  unfold decodeGetPixel
  split
  · exact .ok _ rfl rfl rfl
  · exact reads_badLength _

theorem reads_decodeSetDigit (ops : List Byte) : Reads (0x22#8 :: ops) (decodeSetDigit ops) := by
  unfold decodeSetDigit
  split
  · split
    case h_1 hch hdp => exact .ok _ (by simp [encode, charBytes_of_charOf hch, flagByte_of_flagOf hdp]) rfl rfl
    case h_2 hch => exact .error _ (by simp [charOf_error hch])
    case h_3 hdp _ => exact .error _ (by simp [flagOf_error hdp])
  · exact reads_badLength _

theorem reads_decodeWriteGlyph (ops : List Byte) : Reads (0x23#8 :: ops) (decodeWriteGlyph ops) := by
  unfold decodeWriteGlyph
  split
  · rename_i dev roff len bitmap
    split
    case isTrue hlen =>
      refine .ok _ (by simp [encode, hlen]) ?_ rfl
      have := len.isLt
      simp only [Instr.wf, bitmapWf, decide_eq_true_eq]
      omega
    case isFalse => exact reads_badLength _
  · exact reads_badLength _

theorem reads_decodeGetRow (ops : List Byte) : Reads (0x24#8 :: ops) (decodeGetRow ops) := by
  unfold decodeGetRow
  split
  · exact .ok _ rfl rfl rfl
  · exact reads_badLength _

theorem reads_decodeGlyphFor (ops : List Byte) : Reads (0x30#8 :: ops) (decodeGlyphFor ops) := by
  unfold decodeGlyphFor
  split
  · exact reads_map (fun ch h => .ok _ (by simp [encode, charBytes_of_charOf h]) rfl rfl)
      (fun r h => by simp [charOf_error h])
  · exact reads_badLength _

theorem reads_decodeGlyphForStrict (ops : List Byte) : Reads (0x31#8 :: ops) (decodeGlyphForStrict ops) := by
  unfold decodeGlyphForStrict
  split
  · exact reads_map (fun ch h => .ok _ (by simp [encode, charBytes_of_charOf h]) rfl rfl)
      (fun r h => by simp [charOf_error h])
  · exact reads_badLength _

theorem reads_decodeScrollStart (ops : List Byte) : Reads (0x40#8 :: ops) (decodeScrollStart ops) := by
  unfold decodeScrollStart
  split
  · rename_i t count rest
    split
    case h_1 htmode hchars =>
      obtain ⟨hcount, hrest⟩ := flatMap_of_charsOf hchars
      refine .ok _ (by simp [encode, tmodeCode_of_tmodeOf htmode, hcount, hrest]) ?_ rfl
      have := count.isLt
      simp only [Instr.wf, charsWf, decide_eq_true_eq]
      omega
    case h_2 htmode => exact .error _ (by simp [tmodeOf_error htmode])
    case h_3 hchars _ =>
      rcases charsOf_error hchars with rfl | ⟨v, rfl⟩
      · exact reads_badLength _
      · exact .error _ (by simp)
  · exact reads_badLength _

/-- The tags that stand for no command (30_encoding.md R86). -/
def ReservedTag (tag : Byte) : Prop :=
  tag.toNat = 0x00 ∨ (0x03 ≤ tag.toNat ∧ tag.toNat ≤ 0x0F) ∨ (0x15 ≤ tag.toNat ∧ tag.toNat ≤ 0x1F) ∨
    (0x27 ≤ tag.toNat ∧ tag.toNat ≤ 0x2F) ∨ (0x32 ≤ tag.toNat ∧ tag.toNat ≤ 0x3F) ∨ 0x44 ≤ tag.toNat

theorem decode_of_reservedTag {tag : Byte} (h : ReservedTag tag) (ops : List Byte) :
    decode (tag :: ops) = .error (.reservedTag tag) := by
  unfold ReservedTag at h
  simp only [decode]
  split
  case h_21 => rfl
  all_goals omega

/-- The inversion lemma of `decode` for a tag that is not reserved. -/
theorem reads_decode {tag : Byte} (h : ¬ ReservedTag tag) (ops : List Byte) : Reads (tag :: ops) (decode (tag :: ops)) := by
  have tag_eq : ∀ {k : Nat}, tag.toNat = k → tag = BitVec.ofNat 8 k := by
    rintro _ rfl
    simp
  simp only [decode]
  split
  case h_1 ht => exact tag_eq ht ▸ reads_decodeNew ops
  case h_3 ht => exact tag_eq ht ▸ reads_decodeWriteOne ops
  case h_4 ht => exact tag_eq ht ▸ reads_decodeWriteBcast ops
  case h_5 ht => exact tag_eq ht ▸ reads_decodeWriteAll ops
  case h_8 ht => exact tag_eq ht ▸ reads_decodeSetPixel ops
  case h_9 ht => exact tag_eq ht ▸ reads_decodeGetPixel ops
  case h_10 ht => exact tag_eq ht ▸ reads_decodeSetDigit ops
  case h_11 ht => exact tag_eq ht ▸ reads_decodeWriteGlyph ops
  case h_12 ht => exact tag_eq ht ▸ reads_decodeGetRow ops
  case h_15 ht => exact tag_eq ht ▸ reads_decodeGlyphFor ops
  case h_16 ht => exact tag_eq ht ▸ reads_decodeGlyphForStrict ops
  case h_17 ht => exact tag_eq ht ▸ reads_decodeScrollStart ops
  case h_2 ht | h_6 ht | h_7 ht | h_13 ht | h_14 ht | h_18 ht | h_19 ht | h_20 ht =>
    exact tag_eq ht ▸ reads_decodePlain rfl rfl rfl ops
  case h_21 =>
    unfold ReservedTag at h
    simp only [imp_false] at *
    omega

/-- The record of every command has the length of R84. -/
theorem length_encode (i : Instr) : (encode i).length = i.recordLength := by
  cases i with
  | writeAll reg vals => exact Laws.RecordLength.writeAll reg vals
  | writeGlyph dev roff bitmap => exact Laws.RecordLength.writeGlyph dev roff bitmap
  | scrollStart tmode chars => exact Laws.RecordLength.scrollStart tmode chars
  | _ => rfl

/-- Settles O7: a record that decodes has a tag of R82, and what decoding such a record gives (`reads_decode`) is a command with
this record, whose length is that of R84 (`length_encode`). -/
theorem aDecodedRecordIsTheCommandsRecord : Obligations.ADecodedRecordIsTheCommandsRecord := by
  intro bs i h
  match bs with
  | [] => cases h
  | tag :: ops =>
    by_cases htag : ReservedTag tag
    · rw [decode_of_reservedTag htag] at h
      cases h
    · have hreads := reads_decode htag ops
      rw [h] at hreads
      obtain ⟨_, hencode, hwf, hexpand⟩ := hreads
      exact ⟨hwf, hexpand, hencode, hencode ▸ length_encode i⟩

/-- Settles O5: the codes are those of the table by definition; reading a code back gives its register, so no two registers share
one. -/
theorem registerCodesAreTheTableOfR72 : Obligations.RegisterCodesAreTheTableOfR72 := by
  refine ⟨rfl, fun _ => rfl, rfl, rfl, rfl, rfl, rfl, ?_, regOf_regCode, ?_⟩
  · intro r r' h
    have hread : Except.ok r = Except.ok (ε := Reject) r' := by rw [← regOf_regCode r, h, regOf_regCode]
    exact Except.ok.inj hread
  · intro b hb
    unfold regOf
    split
    case h_15 => rfl
    all_goals omega

/-- Settles O8: each record is the one that `encode` writes for the command beside it, so it decodes to that command (O6). -/
theorem recordsOfTheSpecDecode : Obligations.RecordsOfTheSpecDecode :=
  have decode_encode := decodingAnEncodedCommandGivesItBack
  ⟨decode_encode (.new 2 .matrix) rfl, decode_encode (.writeOne 1 .intensity 5) rfl,
    decode_encode (.writeAll (.digit 3) [0x11, 0x22, 0x33]) rfl, decode_encode (.setDigit 0 2 '5' true) rfl,
    decode_encode (.glyphFor 'I') rfl, decode_encode (.scrollStart .loop ['I', 'L']) rfl⟩

end Sys2Proof
end

section
/-! SUPPORT. Proofs about what the encoding says of the commands: the result bytes and the refusals a command can end with, what the
constructed block refuses, and the pseudo-instruction (30_encoding.md R82, R83, R86-R88). -/

namespace Sys2Proof.Machine

/-! ### How a command ends -/

/-- How many bytes a glyph has in the mode (30_encoding.md R83). -/
def glyphLength : Mode → Nat
  | .matrix => 8
  | .digit => 1

/-- How many result bytes the tag map gives an Ok response of the command (30_encoding.md R82, R83). -/
def resultLength (mode : Mode) : Instr → Nat
  | .deviceCount => 1
  | .getPixel _ _ _ => 1
  | .getRow _ _ => 1
  | .scrollFinished => 1
  | .glyphFor _ => glyphLength mode
  | .glyphForStrict _ => glyphLength mode
  | _ => 0

/-- How the command can end from `s`: with one more response, Ok with the result bytes of the tag map or an error, or stopped; and
a refusal is never one of the record, which the decoder alone makes. -/
inductive Ends (i : Instr) (s : State) : Outcome → Prop
  | ok {t : State} {bytes : List Byte} (ht : t.responses = s.responses)
      (hbytes : ∀ inst, t.inst = some inst → bytes.length = resultLength inst.mode i) : Ends i s (.next (t.answer (.ok bytes)))
  | error {t : State} {k : ErrorKind} (ht : t.responses = s.responses) : Ends i s (.next (t.answer (.error k)))
  | fault (f : Fault) : Ends i s (.fault f)
  | refused {why : Refusal} (hwhy : ∀ r, why ≠ .badRecord r) : Ends i s (.refused why)

section
variable {i : Instr} {s : State}

theorem ends_raise (k : ErrorKind) : Ends i s (raise k s) := .error rfl

theorem ends_ite {c : Prop} [Decidable c] {o o' : Outcome} (ho : Ends i s o) (ho' : Ends i s o') :
    Ends i s (if c then o else o') := by
  split
  · exact ho
  · exact ho'

theorem ends_withInst {k : Inst → Outcome} (hk : ∀ inst, s.inst = some inst → Ends i s (k inst)) : Ends i s (withInst s k) := by
  cases hs : s.inst with
  | none => rw [withInst_none hs]; exact .refused (by simp)
  | some inst => rw [withInst_some hs]; exact hk inst hs

theorem ends_inMode {m : Mode} {k : Inst → Outcome} (hk : ∀ inst, Ends i s (k inst)) : Ends i s (inMode m s k) := by
  exact ends_withInst fun inst _ => ends_ite (hk inst) (.refused (by simp))

theorem ends_withScroll {inst : Inst} {k : ScrollState → Outcome} (hk : ∀ st, Ends i s (k st)) :
    Ends i s (withScroll inst k) := by
  unfold withScroll
  split
  · exact .refused (by simp)
  · exact hk _

theorem ends_requireActive {inst : Inst} {k : Outcome} (hk : Ends i s k) : Ends i s (requireActive inst s k) := by
  unfold requireActive
  split
  · exact ends_raise _
  · exact hk

theorem ends_access {α : Type} {x : Except Fault α} {k : α → Outcome} (hk : ∀ v, Ends i s (k v)) : Ends i s (access x k) := by
  unfold access
  split
  · exact hk _
  · exact .fault _

/-- The frames are sent from `s'`, which `PCLEAR` has given a zero buffer. -/
theorem ends_emitThen {s' : State} {fs : List Frame} {k : State → Outcome} (hs' : s'.responses = s.responses)
    (hk : Ends i s (k (s'.sent fs))) : Ends i s (emitThen fs s' k) := by
  rcases hostOk_or_failsAt s' fs.length with hok | ⟨j, e, hj, hfails⟩
  · simpa [emitThen, emitAll_ok hok] using hk
  · simp only [emitThen, emitAll_err hj hfails, raise_eq]
    exact .error hs'

/-- A gated command that sends frames and answers no bytes (41_register_protocol.md R104). -/
theorem ends_gated (hi : ∀ mode, resultLength mode i = 0) (inst : Inst) (fs : List Frame) :
    Ends i s (requireActive inst s (emitThen fs s (respond []))) :=
  ends_requireActive (ends_emitThen rfl (.ok rfl fun inst _ => (hi inst.mode).symm))

theorem ends_broadcast (hi : ∀ mode, resultLength mode i = 0) (reg : Register) (val : Byte) :
    Ends i s (broadcast reg val s) :=
  ends_withInst fun inst _ => ends_ite (ends_raise _) (ends_gated hi inst _)

theorem length_glyphBytes (c : Config) (mode : Mode) (ch : Char) : (glyphBytes c mode ch).length = glyphLength mode := by
  cases mode with
  | matrix => exact (glyphM c ch).length_toList
  | digit => rfl

theorem ends_glyph (hi : ∀ mode, resultLength mode i = glyphLength mode) {inst : Inst} (hs : s.inst = some inst) (ch : Char) :
    Ends i s (respond (glyphBytes s.cfg inst.mode ch) s) :=
  .ok rfl fun inst' hs' => by
    obtain rfl : inst = inst' := by simpa [hs] using hs'
    rw [length_glyphBytes, hi]

end

/-- How every command ends. -/
theorem ends_exec (i : Instr) (s : State) : Ends i s (exec i s) := by
  cases i with
  | new n mode =>
    simp only [exec, execNew]
    split
    · exact .refused (by simp)
    · exact ends_ite (.refused (by simp)) (ends_ite (ends_raise _) (.ok rfl fun _ _ => rfl))
  | deviceCount => exact ends_withInst fun _ _ => .ok rfl fun _ _ => rfl
  | writeOne dev reg val =>
    exact ends_withInst fun _ _ => ends_ite (ends_raise _) (ends_ite (ends_raise _) (ends_gated (fun _ => rfl) _ _))
  | writeBcast reg val => exact ends_broadcast (fun _ => rfl) reg val
  | setIntensity v => exact ends_broadcast (fun _ => rfl) .intensity v
  | writeAll reg vals =>
    exact ends_withInst fun _ _ => ends_ite (.refused (by simp)) (ends_ite (ends_raise _) (ends_gated (fun _ => rfl) _ _))
  | init | pclear => exact ends_withInst fun _ _ => ends_emitThen rfl (.ok rfl fun _ _ => rfl)
  | setPixel dev row col on =>
    exact ends_inMode fun _ => ends_ite (ends_raise _) (ends_access fun _ => ends_access fun _ => .ok rfl fun _ _ => rfl)
  | getPixel dev row col =>
    exact ends_inMode fun _ => ends_ite (ends_raise _) (ends_access fun _ => .ok rfl fun _ _ => rfl)
  | setDigit dev pos ch dp =>
    exact ends_inMode fun _ => ends_ite (ends_raise _) (ends_access fun _ => .ok rfl fun _ _ => rfl)
  | writeGlyph | getRow =>
    exact ends_withInst fun _ _ => ends_ite (ends_raise _) (ends_access fun _ => .ok rfl fun _ _ => rfl)
  | flush =>
    exact ends_withInst fun _ _ => ends_requireActive (ends_access fun _ => ends_emitThen rfl (.ok rfl fun _ _ => rfl))
  | bclear => exact ends_withInst fun _ _ => .ok rfl fun _ _ => rfl
  | glyphFor ch => exact ends_withInst fun _ hs => ends_glyph (fun _ => rfl) hs ch
  | glyphForStrict ch => exact ends_withInst fun _ hs => ends_ite (ends_glyph (fun _ => rfl) hs ch) (ends_raise _)
  | scrollStart tmode chars => exact ends_inMode fun _ => ends_ite (.refused (by simp)) (.ok rfl fun _ _ => rfl)
  | scrollStep =>
    exact ends_inMode fun _ => ends_withScroll fun _ =>
      ends_ite (.ok rfl fun _ _ => rfl) (ends_access fun _ => .ok rfl fun _ _ => rfl)
  | scrollFinished => exact ends_inMode fun _ => ends_withScroll fun _ => .ok rfl fun _ _ => rfl
  | scrollStop => exact ends_inMode fun _ => .ok rfl fun _ _ => rfl

/-- Settles O46, by how every command ends (`ends_exec`). -/
theorem resultBytesHaveTheLengthOfTheTagMap : Obligations.ResultBytesHaveTheLengthOfTheTagMap := by
  intro i s t inst bytes h hinst hresponses
  have hends := ends_exec i s
  rw [h] at hends
  have hlength : bytes.length = resultLength inst.mode i := by
    cases hends with
    | ok ht hbytes =>
      obtain rfl : _ = bytes := by simpa [ht] using hresponses
      exact hbytes inst hinst
    | error ht => simp [ht] at hresponses
  cases i <;> exact hlength

/-- A refusal of the record is the decoder's: no command makes one. -/
theorem exec_ne_badRecord (i : Instr) (s : State) (r : Reject) : exec i s ≠ .refused (.badRecord r) := by
  intro h
  have hends := ends_exec i s
  rw [h] at hends
  cases hends with
  | refused hwhy => exact hwhy r rfl

/-- Settles O4: the decoder rejects a reserved tag; for any other tag neither the decoder (`reads_decode`) nor the command
(`exec_ne_badRecord`) names the tag as reserved. -/
theorem reservedTagsAreRefused : Obligations.ReservedTagsAreRefused := by
  intro s tag ops rest hinbox
  constructor
  · intro htag
    exact stepRefusesARecordThatSpellsNoCommand s _ rest _ hinbox (decode_of_reservedTag htag ops)
  · intro hstep
    by_contra htag
    cases hdecode : decode (tag :: ops) with
    | ok i =>
      rw [stepRunsTheDecodedCommand s _ rest i hinbox hdecode] at hstep
      exact exec_ne_badRecord _ _ _ hstep
    | error r =>
      rw [stepRefusesARecordThatSpellsNoCommand s _ rest r hinbox hdecode] at hstep
      obtain rfl : r = .reservedTag tag := by simpa using hstep
      have hreads := reads_decode htag ops
      rw [hdecode] at hreads
      cases hreads with
      | error _ hr => exact hr tag rfl

/-! ### What the constructed block refuses -/

theorem withScroll_none {inst : Inst} (h : inst.scroll = none) (k : ScrollState → Outcome) :
    withScroll inst k = .refused .noScroll := by
  simp [withScroll, h]

theorem execWriteAll_wrong_length {s : State} {inst : Inst} (hs : s.inst = some inst) (reg : Register) {vals : List Byte}
    (h : vals.length ≠ inst.n) : execWriteAll reg vals s = .refused (.valueCount vals.length) := by
  rw [execWriteAll, withInst_some hs, if_pos h]

theorem execScrollStart_too_long {s : State} {inst : Inst} (hs : s.inst = some inst) (hm : inst.mode = .matrix) (tmode : TMode)
    {chars : List Char} (h : min 255 s.cfg.maxScrollChars < chars.length) :
    execScrollStart tmode chars s = .refused (.tooManyChars chars.length) := by
  rw [execScrollStart, inMode_some hs hm, if_pos h]

/-- Settles O10: each command asks for its mode, the number of its values, the length of its text or its scroll before it does
anything else. -/
theorem commandsTheInstanceDoesNotAdmitAreRefused : Obligations.CommandsTheInstanceDoesNotAdmitAreRefused := by
  intro s inst hs
  refine ⟨fun hm dev row col on tmode chars => ?_, fun hm dev pos ch dp => ?_, fun reg vals => execWriteAll_wrong_length hs reg,
    fun hm tmode chars hlong => execScrollStart_too_long hs hm tmode (by omega), fun hm hscroll => ?_⟩
  · have hwrong : ∀ k, inMode .matrix s k = .refused (.wrongMode .digit) := fun k => by
      rw [inMode_wrong hs (by simp [hm]), hm]
    exact ⟨hwrong _, hwrong _, hwrong _, hwrong _, hwrong _, hwrong _⟩
  · have hwrong : ∀ k, inMode .digit s k = .refused (.wrongMode .matrix) := fun k => by
      rw [inMode_wrong hs (by simp [hm]), hm]
    exact hwrong _
  · exact ⟨(inMode_some hs hm _).trans (withScroll_none hscroll _), (inMode_some hs hm _).trans (withScroll_none hscroll _)⟩

/-! ### The broadcast of a register -/

theorem badIntensity_iff {reg : Register} {val : Byte} : badIntensity reg val = true ↔ reg = .intensity ∧ 15 < val.toNat := by
  simp [badIntensity]

section
variable {s : State} {inst : Inst} {reg : Register} {val : Byte}

theorem broadcast_of_badIntensity (hs : s.inst = some inst) (h : reg = .intensity ∧ 15 < val.toNat) :
    broadcast reg val s = .next (s.answer (.error .intensityOutOfRange)) := by
  rw [broadcast, withInst_some hs, if_pos (badIntensity_iff.2 h), raise_eq]

theorem broadcast_uninitialized (hs : s.inst = some inst) (h : ¬ (reg = .intensity ∧ 15 < val.toNat))
    (hp : inst.phase = .uninitialized) : broadcast reg val s = .next (s.answer (.error .notInitialized)) := by
  rw [broadcast, withInst_some hs, if_neg (mt badIntensity_iff.1 h)]
  simp [requireActive, hp]

theorem broadcast_active (hs : s.inst = some inst) (h : ¬ (reg = .intensity ∧ 15 < val.toNat)) (hp : inst.phase = .active) :
    Emits s [bcastFrame inst.n reg val] (fun t => t.answer (.ok [])) (broadcast reg val s) := by
  rw [broadcast, withInst_some hs, if_neg (mt badIntensity_iff.1 h)]
  simp only [requireActive, hp]
  exact emitThen_emits s _ _

end

/-- Settles O16: `SET_INTENSITY` is the broadcast of the Intensity register. -/
theorem setIntensityBroadcastsTheIntensity : Obligations.SetIntensityBroadcastsTheIntensity := by
  intro v s inst hs
  refine ⟨fun hv => broadcast_of_badIntensity hs ⟨rfl, hv⟩, fun hv hp => broadcast_uninitialized hs (by omega) hp,
    fun hv hp => ⟨_, isFrame_bcast inst.n .intensity v, broadcast_active hs (by omega) hp⟩⟩

end Sys2Proof.Machine
end

section
/-! SUPPORT. Proofs about the register protocol: the register writes, `INIT` and `PCLEAR`, and what is sent before `INIT`
(41_register_protocol.md). -/

namespace Sys2Proof.Machine

/-! ### The gate and the records -/

theorem requireActive_uninitialized {inst : Inst} (hp : inst.phase = .uninitialized) (s : State) (k : Outcome) :
    requireActive inst s k = .next (s.answer (.error .notInitialized)) := by
  simp [requireActive, hp]

/-- In `Active` a gated command sends its frames and answers no bytes (41_register_protocol.md R104). -/
theorem requireActive_emits {inst : Inst} (hp : inst.phase = .active) (s : State) (fs : List Frame) :
    Emits s fs (fun t => t.answer (.ok [])) (requireActive inst s (emitThen fs s (respond []))) := by
  simp only [requireActive, hp]
  exact emitThen_emits s fs _

/-! ### `WRITE_ONE` -/

section
variable {s : State} {inst : Inst} {dev : Byte} {reg : Register} {val : Byte}

theorem execWriteOne_out_of_range (hs : s.inst = some inst) (hdev : inst.n ≤ dev.toNat) :
    execWriteOne dev reg val s = .next (s.answer (.error .indexOutOfRange)) := by
  rw [execWriteOne, withInst_some hs, if_pos hdev, raise_eq]

theorem execWriteOne_of_badIntensity (hs : s.inst = some inst) (hdev : dev.toNat < inst.n)
    (h : reg = .intensity ∧ 15 < val.toNat) :
    execWriteOne dev reg val s = .next (s.answer (.error .intensityOutOfRange)) := by
  rw [execWriteOne, withInst_some hs, if_neg (Nat.not_le.2 hdev), if_pos (badIntensity_iff.2 h), raise_eq]

/-- A pair that passes both checks is left to the gate. -/
theorem execWriteOne_of_checked (hs : s.inst = some inst) (hdev : dev.toNat < inst.n)
    (h : ¬ (reg = .intensity ∧ 15 < val.toNat)) :
    execWriteOne dev reg val s =
      requireActive inst s (emitThen [oneFrame inst.n dev.toNat reg val] s (respond [])) := by
  rw [execWriteOne, withInst_some hs, if_neg (Nat.not_le.2 hdev), if_neg (mt badIntensity_iff.1 h)]

end

/-- Settles O14: the two checks come before the gate, and behind it the one frame is sent. -/
theorem writeOneSendsThePairAtTheDevicesSlot : Obligations.WriteOneSendsThePairAtTheDevicesSlot := by
  refine ⟨fun dev reg val => decodingAnEncodedCommandGivesItBack (.writeOne dev reg val) rfl,
    fun dev reg val s inst hs => ⟨execWriteOne_out_of_range hs, fun hdev =>
      ⟨fun hreg hval => execWriteOne_of_badIntensity hs hdev ⟨hreg, hval⟩, fun hgood hp => ?_, fun hgood hp => ?_⟩⟩⟩
  · exact (execWriteOne_of_checked hs hdev hgood).trans (requireActive_uninitialized hp s _)
  · refine ⟨_, isFrame_one inst.n dev.toNat reg val, ?_⟩
    rw [exec, execWriteOne_of_checked hs hdev hgood]
    exact requireActive_emits hp s _

/-! ### `WRITE_BCAST` -/

/-- Settles O15: `WRITE_BCAST` is the broadcast of its pair. -/
theorem writeBcastSendsThePairAtEverySlot : Obligations.WriteBcastSendsThePairAtEverySlot :=
  ⟨fun reg val => decodingAnEncodedCommandGivesItBack (.writeBcast reg val) rfl, fun reg val _ inst hs =>
    ⟨fun hreg hval => broadcast_of_badIntensity hs ⟨hreg, hval⟩, broadcast_uninitialized hs,
      fun hgood hp => ⟨_, isFrame_bcast inst.n reg val, broadcast_active hs hgood hp⟩⟩⟩

/-! ### `WRITE_ALL` -/

theorem any_badIntensity_iff {reg : Register} {vals : List Byte} :
    vals.any (badIntensity reg) = true ↔ reg = .intensity ∧ ∃ v ∈ vals, 15 < v.toNat := by
  simp only [List.any_eq_true, badIntensity_iff]
  exact ⟨fun ⟨v, hv, hreg, h15⟩ => ⟨hreg, v, hv, h15⟩, fun ⟨hreg, v, hv, h15⟩ => ⟨v, hv, hreg, h15⟩⟩

section
variable {s : State} {inst : Inst} {reg : Register} {vals : List Byte}

theorem execWriteAll_of_badIntensity (hs : s.inst = some inst) (hlen : vals.length = inst.n)
    (h : reg = .intensity ∧ ∃ v ∈ vals, 15 < v.toNat) :
    execWriteAll reg vals s = .next (s.answer (.error .intensityOutOfRange)) := by
  rw [execWriteAll, withInst_some hs, if_neg (not_not.2 hlen), if_pos (any_badIntensity_iff.2 h), raise_eq]

/-- A list that passes both checks is left to the gate. -/
theorem execWriteAll_of_checked (hs : s.inst = some inst) (hlen : vals.length = inst.n)
    (h : ¬ (reg = .intensity ∧ ∃ v ∈ vals, 15 < v.toNat)) :
    execWriteAll reg vals s = requireActive inst s (emitThen [allFrame reg vals] s (respond [])) := by
  rw [execWriteAll, withInst_some hs, if_neg (not_not.2 hlen), if_neg (mt any_badIntensity_iff.1 h)]

end

/-- Settles O17: the length is checked first, then every value, then the gate, and behind it the one frame is sent. -/
theorem writeAllSendsEachDeviceItsValue : Obligations.WriteAllSendsEachDeviceItsValue := by
  refine ⟨fun reg vals h1 h255 => decodingAnEncodedCommandGivesItBack (.writeAll reg vals) (decide_eq_true ⟨h1, h255⟩),
    fun reg vals s inst hs => ⟨fun hlen => ⟨_, execWriteAll_wrong_length hs reg hlen⟩, fun hlen =>
      ⟨fun hreg hval => execWriteAll_of_badIntensity hs hlen ⟨hreg, hval⟩, fun hgood hp => ?_, fun hgood hp => ?_⟩⟩⟩
  · exact (execWriteAll_of_checked hs hlen hgood).trans (requireActive_uninitialized hp s _)
  · refine ⟨_, hlen ▸ isFrame_all reg vals, ?_⟩
    rw [exec, execWriteAll_of_checked hs hlen hgood]
    exact requireActive_emits hp s _

theorem allFrame_replicate (n : Nat) (reg : Register) (v : Byte) :
    allFrame reg (List.replicate n v) = bcastFrame n reg v := by
  rw [allFrame, List.map_replicate, bcastFrame]

/-- Settles O18: with a device in the chain the two commands make the same check, and their frames are the same. -/
theorem writeAllOfEqualValuesIsWriteBcast : Obligations.WriteAllOfEqualValuesIsWriteBcast := by
  intro reg v s inst hs hn
  have hcheck : (List.replicate inst.n v).any (badIntensity reg) = badIntensity reg v := by
    rw [List.any_replicate, if_neg (by omega)]
  simp only [exec, execWriteAll, execWriteBcast, broadcast, withInst_some hs, List.length_replicate, ne_eq, not_true,
    if_false, hcheck, allFrame_replicate]

/-! ### `INIT` -/

theorem decodeValue_eq_zero (mode : Mode) : decodeValue mode = 0x00#8 := by cases mode <;> rfl

/-- `INIT` sends its five frames in either phase, then the phase is `Active`. -/
theorem execInit_emits {s : State} {inst : Inst} (hs : s.inst = some inst) :
    Emits s (initFrames s.cfg inst.mode inst.n) (fun t => (t.setPhase .active).answer (.ok [])) (execInit s) := by
  rw [execInit, withInst_some hs]
  exact emitThen_emits s _ _

/-- Settles O19: the five frames of `initFrames` are broadcasts of the pairs of `initSeq`. -/
theorem initSendsTheFiveFramesAndActivates : Obligations.InitSendsTheFiveFramesAndActivates := by
  refine ⟨rfl, fun s inst hs => ⟨_, _, _, _, _, isFrame_bcast inst.n .displayTest 0x00#8, ?_, ?_,
    isFrame_bcast inst.n .intensity s.cfg.intensityByte, isFrame_bcast inst.n .shutdown 0x01#8, execInit_emits hs⟩⟩
  · rw [decodeValue_eq_zero]
    exact isFrame_bcast inst.n .decodeMode 0x00#8
  · cases inst.mode <;> exact isFrame_bcast inst.n .scanLimit _

/-! ### `PCLEAR` -/

/-- A frame of `PCLEAR` writes 0x00 to one digit or row register of every device. -/
theorem isFrame_clear (n : Nat) {r : Nat} (hr : r < 8) :
    IsFrame n (bcastFrame n (digitReg r) 0x00#8) fun _ => (BitVec.ofNat 8 (r + 1), 0x00#8) :=
  regCode_digitReg hr ▸ isFrame_bcast n (digitReg r) 0x00#8

/-- `PCLEAR` sends its eight frames in either phase, from the state with the zeroed buffer. -/
theorem execPclear_emits {s : State} {inst : Inst} (hs : s.inst = some inst) :
    Emits (s.setInst inst.clearBuf) (clearFrames inst.n) (fun t => t.answer (.ok [])) (execPclear s) := by
  rw [execPclear, withInst_some hs]
  exact emitThen_emits _ _ _

/-- Settles O20: the buffer `PCLEAR` starts its frames with is the empty memory, of which every byte reads as 0x00. -/
theorem pclearZeroesTheBufferAndTheDigitRegisters : Obligations.PclearZeroesTheBufferAndTheDigitRegisters := by
  refine ⟨rfl, fun s inst hs => ⟨[], clearFrames inst.n, rfl, Memory.read_nil, by simp [clearFrames], fun r hr => ?_,
    execPclear_emits hs⟩⟩
  exact ⟨_, by simp [clearFrames, hr], isFrame_clear inst.n hr⟩

/-! ### What is sent before `INIT` -/

/-- The transfers of a run of transactions are those of its frames. -/
theorem mem_of_transfer_mem_eventsOf {s : State} {fs : List Frame} {f : Frame} {res : HostResult}
    (h : Event.transfer f res ∈ s.eventsOf fs) : f ∈ fs := by
  induction fs generalizing s with
  | nil => simp at h
  | cons g gs ih =>
    rw [State.eventsOf_cons, List.mem_append] at h
    rcases h with h | h
    · obtain ⟨rfl, _⟩ : f = g ∧ res = s.nextResult := by simpa [transaction] using h
      exact List.mem_cons_self
    · exact List.mem_cons_of_mem g (ih h)

/-- In `Uninitialized` a command other than `INIT` sends at most frames of `PCLEAR` (41_register_protocol.md R112): every other
command that sends frames is gated. -/
theorem exec_uninitialized_events {i : Instr} {s t : State} {inst : Inst} (hs : s.inst = some inst)
    (hp : inst.phase = .uninitialized) (hi : i ≠ .init) (h : exec i s = .next t) :
    ∃ (s' : State) (fs : List Frame), fs ⊆ clearFrames inst.n ∧ t.transcript = s.transcript ++ s'.eventsOf fs := by
  cases exec_case h with
  | same r ht => exact ⟨s, [], by simp, by simp [ht]⟩
  | construct n mode _ hnone => simp [hs] at hnone
  | write inst' j _ _ _ _ _ ht => exact ⟨s, [], by simp, by simp [ht]⟩
  | emit inst' fs _ hs' _ hgate hclear ht =>
    obtain rfl : inst = inst' := by simpa [hs] using hs'
    have hpclear : i = .pclear := by
      by_contra hne
      simp [hgate hi hne] at hp
    obtain rfl := hclear hpclear
    rcases ht with ⟨_, rfl⟩ | ⟨k, e, _, _, rfl⟩
    · exact ⟨s.setInst (atEmit i inst), _, fun _ => id, by simp⟩
    · exact ⟨s.setInst (atEmit i inst), _, List.take_subset _ _, rfl⟩

/-- The register code of a slot of a `PCLEAR` frame is that of `Digit0` to `Digit7` (30_encoding.md R72). -/
theorem clearFrames_code {n d : Nat} {f : Frame} {b : Byte} (hf : f ∈ clearFrames n) (hd : d < n) (hb : f[2 * d]? = some b) :
    1 ≤ b.toNat ∧ b.toNat ≤ 8 := by
  obtain ⟨r, hr, rfl⟩ := List.mem_map.1 hf
  rw [List.mem_range] at hr
  obtain rfl : BitVec.ofNat 8 (r + 1) = b := by simpa [((isFrame_clear n hr).2 d hd).1] using hb
  rw [BitVec.toNat_ofNat]
  omega

/-- Settles O54: what is sent are frames of `PCLEAR` (`exec_uninitialized_events`), and their codes are 1 to 8. -/
theorem beforeInitOnlyDigitRegistersAreWritten : Obligations.BeforeInitOnlyDigitRegistersAreWritten := by
  intro i s t inst events hs hp hi h ht f res d b hf hd hb
  obtain ⟨s', fs, hfs, hevents⟩ := exec_uninitialized_events hs hp hi h
  obtain rfl : events = s'.eventsOf fs := List.append_cancel_left (ht.symm.trans hevents)
  exact clearFrames_code (hfs (mem_of_transfer_mem_eventsOf hf)) hd hb

end Sys2Proof.Machine
end

section
/-! SUPPORT. Proofs about the chain topology: `NEW` and `DEVICE_COUNT` (42_chain_topology.md). -/

namespace Sys2Proof.Machine

/-! ### `NEW` -/

section
variable {s : State} {n : Byte} {mode : Mode}

theorem execNew_zero (hs : s.inst = none) (hn : n.toNat = 0) :
    execNew n mode s = .next (s.answer (.error .zeroLengthChain)) := by
  simp [execNew, hs, hn]

/-- Within 1 to MAX_DEVICES the fresh block is constructed. -/
theorem execNew_fresh (hs : s.inst = none) (h1 : 1 ≤ n.toNat) (h2 : n.toNat ≤ s.cfg.maxDevices) :
    execNew n mode s = .next ((s.setInst (Inst.fresh n.toNat mode)).answer (.ok [])) := by
  simp [execNew, hs, Nat.not_lt.2 h2, Nat.pos_iff_ne_zero.1 h1]

theorem execNew_too_many (hs : s.inst = none) (hn : s.cfg.maxDevices < n.toNat) :
    execNew n mode s = .refused (.tooManyDevices n) := by
  simp [execNew, hs, hn]

end

/-- Every byte of the buffer of a fresh block is 0x00 (42_chain_topology.md R130). -/
@[simp] theorem Inst.fresh_byteAt (n : Nat) (mode : Mode) (d r : Nat) : (Inst.fresh n mode).byteAt d r = 0x00#8 :=
  Memory.read_nil _

/-- Settles O12, by the four branches of `NEW`; the block it constructs is the fresh one. -/
theorem newConstructsTheInstance : Obligations.NewConstructsTheInstance := by
  refine ⟨fun n mode => decodingAnEncodedCommandGivesItBack (.new n mode) rfl, fun n mode s =>
    ⟨execNew_zero, fun hs h1 h2 => ?_, fun hs hn => ⟨_, execNew_too_many hs hn⟩, fun _ hs => ⟨_, exec_new_constructed hs⟩⟩⟩
  exact ⟨Inst.fresh n.toNat mode, execNew_fresh hs h1 h2, rfl, rfl, rfl, rfl, Memory.wf_nil, Inst.fresh_byteAt n.toNat mode⟩

/-! ### `DEVICE_COUNT` -/

/-- MAX_DEVICES fits in a byte (00_scope.md R6). -/
theorem maxDevices_le (c : Config) : c.maxDevices ≤ 255 := c.maxDevicesLess1.isLt

/-- The device count of a legal block is read back from its byte. -/
theorem Inst.Inv.toNat_ofNat_n {c : Config} {inst : Inst} (h : inst.Inv c) : (BitVec.ofNat 8 inst.n).toNat = inst.n := by
  have hn : inst.n ≤ 255 := h.n_le.trans (maxDevices_le c)
  rw [BitVec.toNat_ofNat, Nat.mod_eq_of_lt (by omega)]

/-- Settles O13: the byte answered holds the count, since a legal block has at most MAX_DEVICES devices. -/
theorem deviceCountAnswersN : Obligations.DeviceCountAnswersN :=
  ⟨decodingAnEncodedCommandGivesItBack .deviceCount rfl, fun _ inst hs =>
    ⟨BitVec.ofNat 8 inst.n, withInst_some hs _, Inst.Inv.toNat_ofNat_n⟩⟩

end Sys2Proof.Machine
end

section
/-! SUPPORT. Proofs about the display buffer: pixels, digits, blocks of rows, `FLUSH` and `BCLEAR` (43_display_buffer.md). -/

namespace Sys2Proof.Machine

/-! ### Runs and transactions -/

/-- Two commands run one after the other. -/
theorem runCommands_two {i j : Instr} {s s' t : State} (hi : exec i s = .next s') (hj : exec j s' = .next t) :
    runCommands [i, j] s = .next t := by
  simp [runCommands, hi, hj]

/-- The events of frames that the host answers Ok. -/
theorem State.eventsOf_of_hostOk {s : State} {fs : List Frame} (h : s.HostOk fs.length) : s.eventsOf fs = okEvents fs := by
  induction fs generalizing s with
  | nil => rfl
  | cons f fs ih =>
    obtain ⟨hf, hfs⟩ := State.hostOk_cons (f := f).1 h
    rw [State.eventsOf_cons, hf, ih hfs]
    rfl

/-! ### The bits of a buffer byte (20_memory.md R52, R53) -/

theorem getLsbD_pixelMask (col k : Nat) : (pixelMask col).getLsbD k = decide (k = 7 - col) := by
  have htwoPow : pixelMask col = BitVec.twoPow 8 (7 - col) := rfl
  have hlt : 7 - col < 8 := by omega
  simp [htwoPow, BitVec.getLsbD_twoPow, hlt, eq_comm]

/-- Setting a pixel sets bit 7 − col and keeps the others. -/
theorem getLsbD_withPixel (b : Byte) (col : Nat) (on : Bool) {k : Nat} (hk : k < 8) :
    (withPixel b col on).getLsbD k = if k = 7 - col then on else b.getLsbD k := by
  cases on with
  | true =>
    rw [withPixel, if_pos rfl, BitVec.getLsbD_or, getLsbD_pixelMask]
    by_cases h : k = 7 - col <;> simp [h]
  | false =>
    rw [withPixel, if_neg Bool.false_ne_true, BitVec.getLsbD_and, BitVec.getLsbD_not, getLsbD_pixelMask]
    by_cases h : k = 7 - col <;> simp [h, hk]

theorem pixelOf_eq (b : Byte) (col : Nat) : pixelOf b col = if b.getLsbD (7 - col) then 0x01#8 else 0x00#8 := by
  rw [pixelOf, BitVec.and_one_eq_setWidth_ofBool_getLsbD, BitVec.getLsbD_ushiftRight, Nat.add_zero]
  cases b.getLsbD (7 - col) <;> rfl

/-- Bit 7 of a digit byte is the decimal point. -/
theorem getLsbD_digitByte_point (seg : Byte) (dp : Bool) : (digitByte seg dp).getLsbD 7 = dp := by
  cases dp <;> simp [digitByte, flagByte]

/-- Bits 6 to 0 of a digit byte are the font's segments. -/
theorem getLsbD_digitByte_segment (seg : Byte) (dp : Bool) {k : Nat} (hk : k < 7) :
    (digitByte seg dp).getLsbD k = seg.getLsbD k := by
  have hmask : (0x7F#8).getLsbD k = true := by interval_cases k <;> rfl
  simp [digitByte, hmask, hk]

/-! ### `SET_PIXEL` -/

section
variable {s : State} {inst : Inst} {dev row col : Byte}

theorem execSetPixel_out_of_range (hs : s.inst = some inst) (hm : inst.mode = .matrix) (on : Bool)
    (h : inst.n ≤ dev.toNat ∨ 8 ≤ row.toNat ∨ 8 ≤ col.toNat) :
    execSetPixel dev row col on s = .next (s.answer (.error .indexOutOfRange)) := by
  rw [execSetPixel, inMode_some hs hm, if_pos h, raise_eq]

/-- Within its bounds `SET_PIXEL` writes back the row byte with the pixel set. -/
theorem execSetPixel_in_range (hs : s.inst = some inst) (hm : inst.mode = .matrix) (on : Bool) (hdev : dev.toNat < inst.n)
    (hrow : row.toNat < 8) (hcol : col.toNat < 8) :
    execSetPixel dev row col on s =
      .next ((s.setInst { inst with
        buf := inst.buf.write (bufAddr dev.toNat row.toNat)
          (withPixel (inst.byteAt dev.toNat row.toNat) col.toNat on) }).answer (.ok [])) := by
  have ha : bufAddr dev.toNat row.toNat < 8 * inst.n := bufAddr_lt hdev hrow
  rw [execSetPixel, inMode_some hs hm, if_neg (by omega)]
  simp only [memRead_ok ha, memWrite_ok ha, access_ok, respond_eq, Inst.byteAt]

/-! ### `GET_PIXEL` -/

theorem execGetPixel_out_of_range (hs : s.inst = some inst) (hm : inst.mode = .matrix)
    (h : inst.n ≤ dev.toNat ∨ 8 ≤ row.toNat ∨ 8 ≤ col.toNat) :
    execGetPixel dev row col s = .next (s.answer (.error .indexOutOfRange)) := by
  rw [execGetPixel, inMode_some hs hm, if_pos h, raise_eq]

theorem execGetPixel_in_range (hs : s.inst = some inst) (hm : inst.mode = .matrix) (hdev : dev.toNat < inst.n)
    (hrow : row.toNat < 8) (hcol : col.toNat < 8) :
    execGetPixel dev row col s =
      .next (s.answer (.ok [pixelOf (inst.byteAt dev.toNat row.toNat) col.toNat])) := by
  rw [execGetPixel, inMode_some hs hm, if_neg (by omega), memRead_ok (bufAddr_lt hdev hrow), access_ok, respond_eq,
    Inst.byteAt]

end

/-- Settles O21: what is written is the row byte with the one bit set (`getLsbD_withPixel`), and a write leaves the other
addresses as they are (`Memory.read_write`). -/
theorem setPixelSetsOneBit : Obligations.SetPixelSetsOneBit := by
  refine ⟨fun dev row col on => decodingAnEncodedCommandGivesItBack (.setPixel dev row col on) rfl,
    fun dev row col on s inst hs => ⟨fun hm => ?_, fun hm => ⟨execSetPixel_out_of_range hs hm on,
      fun hdev hrow hcol hwf => ⟨_, execSetPixel_in_range hs hm on hdev hrow hcol, Memory.wf_write hwf _ _,
        fun k hk => ?_, fun a ha => ?_⟩⟩⟩⟩
  · obtain ⟨hrefused, -⟩ := (commandsTheInstanceDoesNotAdmitAreRefused s inst hs).1 hm dev row col on .loop []
    exact ⟨_, hrefused⟩
  · rw [← bufAddr, Memory.read_write hwf, if_pos rfl]
    exact getLsbD_withPixel _ _ on hk
  · rw [Memory.read_write hwf]
    exact if_neg ha

/-- Settles O22, by the bit that `pixelOf` reads. -/
theorem getPixelAnswersTheBit : Obligations.GetPixelAnswersTheBit := by
  refine ⟨fun dev row col => decodingAnEncodedCommandGivesItBack (.getPixel dev row col) rfl,
    fun dev row col s inst hs => ⟨fun hm => ?_, fun hm => ⟨execGetPixel_out_of_range hs hm, fun hdev hrow hcol => ?_⟩⟩⟩
  · obtain ⟨-, hrefused, -⟩ := (commandsTheInstanceDoesNotAdmitAreRefused s inst hs).1 hm dev row col true .loop []
    exact ⟨_, hrefused⟩
  · rw [exec, execGetPixel_in_range hs hm hdev hrow hcol, pixelOf_eq]
    rfl

/-- Settles O23: `GET_PIXEL` reads, of the buffer `SET_PIXEL` leaves (O21), the bit that O22 says, which is the one written. -/
theorem setPixelThenGetPixelAnswersTheBitWritten : Obligations.SetPixelThenGetPixelAnswersTheBitWritten := by
  intro dev row col on s inst hs hm hwf hdev hrow hcol
  obtain ⟨m, hset, -, hbits, -⟩ :=
    ((setPixelSetsOneBit.2 dev row col on s inst hs).2 hm).2 hdev hrow hcol hwf
  have hget := ((getPixelAnswersTheBit.2 dev row col ((s.setInst { inst with buf := m }).answer (.ok [])) _ rfl).2 hm).2
    hdev hrow hcol
  rw [hbits (7 - col.toNat) (by omega), if_pos rfl] at hget
  exact ⟨_, runCommands_two hset hget, by simp, by simp⟩

/-! ### `SET_DIGIT` -/

section
variable {s : State} {inst : Inst} {dev pos : Byte}

theorem execSetDigit_out_of_range (hs : s.inst = some inst) (hm : inst.mode = .digit) (ch : Char) (dp : Bool)
    (h : inst.n ≤ dev.toNat ∨ s.cfg.digitCount ≤ pos.toNat) :
    execSetDigit dev pos ch dp s = .next (s.answer (.error .indexOutOfRange)) := by
  rw [execSetDigit, inMode_some hs hm, hm]
  exact if_pos h

/-- Within its bounds `SET_DIGIT` writes the digit byte of the font's code. -/
theorem execSetDigit_in_range (hs : s.inst = some inst) (hm : inst.mode = .digit) (ch : Char) (dp : Bool)
    (hdev : dev.toNat < inst.n) (hpos : pos.toNat < s.cfg.digitCount) :
    execSetDigit dev pos ch dp s =
      .next ((s.setInst { inst with
        buf := inst.buf.write (bufAddr dev.toNat pos.toNat) (digitByte (glyphD s.cfg ch) dp) }).answer (.ok [])) := by
  have hin : ¬ (inst.n ≤ dev.toNat ∨ rows s.cfg inst.mode ≤ pos.toNat) := by
    simp only [hm, rows]
    omega
  rw [execSetDigit, inMode_some hs hm, if_neg hin, memWrite_ok (bufAddr_lt_of_inUse hin), access_ok, respond_eq]

end

/-- Settles O24: what is written is the digit byte of the font's code, 0x00 where the font has none. -/
theorem setDigitWritesSegmentsAndPoint : Obligations.SetDigitWritesSegmentsAndPoint := by
  refine ⟨fun dev pos ch dp => decodingAnEncodedCommandGivesItBack (.setDigit dev pos ch dp) rfl,
    fun dev pos ch dp s inst hs => ⟨fun hm => ?_, fun hm => ⟨execSetDigit_out_of_range hs hm ch dp,
      fun hdev hpos hwf => ⟨_, execSetDigit_in_range hs hm ch dp hdev hpos, Memory.wf_write hwf _ _, ?_,
        fun k hk => ?_, fun a ha => ?_⟩⟩⟩⟩
  · exact ⟨_, (commandsTheInstanceDoesNotAdmitAreRefused s inst hs).2.1 hm dev pos ch dp⟩
  · rw [← bufAddr, Memory.read_write hwf, if_pos rfl]
    exact getLsbD_digitByte_point _ dp
  · rw [← bufAddr, Memory.read_write hwf, if_pos rfl, getLsbD_digitByte_segment _ dp hk, glyphD]
    cases s.cfg.fontD.lookup ch with
    | none => simp
    | some seg => rfl
  · rw [Memory.read_write hwf]
    exact if_neg ha

/-! ### `WRITE_GLYPH` -/

section
variable {s : State} {inst : Inst} {dev roff : Byte} {bitmap : List Byte}

theorem execWriteGlyph_out_of_range (hs : s.inst = some inst)
    (h : inst.n ≤ dev.toNat ∨ rows s.cfg inst.mode < roff.toNat + bitmap.length) :
    execWriteGlyph dev roff bitmap s = .next (s.answer (.error .indexOutOfRange)) := by
  rw [execWriteGlyph, withInst_some hs, if_pos h, raise_eq]

/-- A block that fits is written whole; it ends at row 8 of its device at most. -/
theorem execWriteGlyph_in_range (hs : s.inst = some inst) (hdev : dev.toNat < inst.n)
    (hfits : roff.toNat + bitmap.length ≤ rows s.cfg inst.mode) :
    execWriteGlyph dev roff bitmap s =
      .next ((s.setInst { inst with
        buf := inst.buf.writeBlock (bufAddr dev.toNat roff.toNat) bitmap }).answer (.ok [])) := by
  have hrows := rows_le s.cfg inst.mode
  have hend : bufAddr dev.toNat roff.toNat + bitmap.length ≤ 8 * inst.n := by unfold bufAddr; omega
  rw [execWriteGlyph, withInst_some hs, if_neg (by omega), memWriteBlock_ok (.inr hend), access_ok, respond_eq]

end

/-- Settles O25: a block that fits is written whole, and a block write leaves the bytes outside it as they are
(`Memory.read_writeBlock`). -/
theorem writeGlyphOverwritesABlockOfRows : Obligations.WriteGlyphOverwritesABlockOfRows := by
  refine ⟨fun dev roff bitmap hlen =>
      decodingAnEncodedCommandGivesItBack (.writeGlyph dev roff bitmap) (decide_eq_true hlen),
    fun dev roff bitmap s inst hs => ⟨execWriteGlyph_out_of_range hs, fun hdev hfits hwf =>
      ⟨_, execWriteGlyph_in_range hs hdev hfits, Memory.wf_writeBlock hwf _ _, fun k hk => ?_, fun a ha => ?_⟩⟩⟩
  · rw [Memory.read_writeBlock hwf, bufAddr, if_pos (by omega), Nat.add_sub_cancel_left]
    simp [hk]
  · rw [Memory.read_writeBlock hwf, bufAddr, if_neg (by omega)]

/-! ### `GET_ROW` -/

/-- Settles O26, by the two branches of `GET_ROW`. -/
theorem getRowAnswersTheByte : Obligations.GetRowAnswersTheByte := by
  refine ⟨fun dev row => decodingAnEncodedCommandGivesItBack (.getRow dev row) rfl,
    fun dev row s inst hs => ⟨fun hout => ?_, fun hdev hrow => ?_⟩⟩
  · rw [exec, execGetRow, withInst_some hs, if_pos hout, raise_eq]
  · have hin : ¬ (inst.n ≤ dev.toNat ∨ rows s.cfg inst.mode ≤ row.toNat) := by omega
    rw [exec, execGetRow, withInst_some hs, if_neg hin, memRead_ok (bufAddr_lt_of_inUse hin), access_ok, respond_eq, bufAddr]

/-! ### `FLUSH` -/

/-- The frames of a flush: one for each row in use, in ascending order. -/
def flushFrames (c : Config) (inst : Inst) : List Frame := (List.range' 0 (rows c inst.mode)).map (rowFrame inst)

@[simp] theorem length_flushFrames (c : Config) (inst : Inst) : (flushFrames c inst).length = rows c inst.mode := by
  simp [flushFrames]

/-- Frame `r` of a flush holds row `r` of every device. -/
theorem isFrame_flushFrames {c : Config} {inst : Inst} {r : Nat} (hr : r < rows c inst.mode) :
    ∃ f, (flushFrames c inst)[r]? = some f ∧ IsFrame inst.n f fun d => (BitVec.ofNat 8 (r + 1), inst.byteAt d r) :=
  ⟨rowFrame inst r, by simp [flushFrames, hr], isFrame_rowFrame inst (hr.trans_le (rows_le c inst.mode))⟩

theorem execFlush_uninitialized {s : State} {inst : Inst} (hs : s.inst = some inst) (hp : inst.phase = .uninitialized) :
    execFlush s = .next (s.answer (.error .notInitialized)) := by
  rw [execFlush, withInst_some hs, requireActive_uninitialized hp]

theorem execFlush_emits {s : State} {inst : Inst} (hs : s.inst = some inst) (hp : inst.phase = .active) :
    Emits s (flushFrames s.cfg inst) (fun t => t.answer (.ok [])) (execFlush s) := by
  have hrows : 0 + rows s.cfg inst.mode ≤ 8 := by simpa using rows_le s.cfg inst.mode
  rw [execFlush, withInst_some hs, readFrames_ok hrows, access_ok]
  exact requireActive_emits hp s _

/-- In `Active` with a host that answers Ok, `FLUSH` sends every row in use. -/
theorem execFlush_of_hostOk {s : State} {inst : Inst} (hs : s.inst = some inst) (hp : inst.phase = .active)
    (hok : s.HostOk (rows s.cfg inst.mode)) :
    execFlush s = .next ((s.sent (flushFrames s.cfg inst)).answer (.ok [])) :=
  (execFlush_emits hs hp).1 (by rwa [length_flushFrames])

/-- Settles O27: behind the gate, the frames sent are those of the rows in use. -/
theorem flushSendsEveryRow : Obligations.FlushSendsEveryRow := by
  refine ⟨rfl, fun s inst hs => ⟨execFlush_uninitialized hs, fun hp =>
    ⟨flushFrames s.cfg inst, ?_, fun r hr => isFrame_flushFrames (by simpa using hr), execFlush_emits hs hp⟩⟩⟩
  rw [length_flushFrames]
  cases inst.mode <;> rfl

/-! ### `BCLEAR` -/

theorem execBclear_eq {s : State} {inst : Inst} (hs : s.inst = some inst) :
    execBclear s = .next ((s.setInst inst.clearBuf).answer (.ok [])) := by
  rw [execBclear, withInst_some hs, respond_eq]

/-- Settles O28: the empty memory is canonical, and every byte of it reads as 0x00. -/
theorem bclearZeroesTheBuffer : Obligations.BclearZeroesTheBuffer :=
  ⟨rfl, fun _ _ hs => ⟨[], execBclear_eq hs, Memory.wf_nil, Memory.read_nil⟩⟩

@[simp] theorem Inst.clearBuf_byteAt (inst : Inst) (d r : Nat) : inst.clearBuf.byteAt d r = 0x00#8 := Memory.read_nil _

/-- Settles O29: `FLUSH` sends the rows in use of the buffer `BCLEAR` leaves, in which every byte is 0x00. -/
theorem bclearThenFlushSendsZeroRows : Obligations.BclearThenFlushSendsZeroRows := by
  intro s inst hs hp hok
  have hflush := execFlush_of_hostOk (s := (s.setInst inst.clearBuf).answer (.ok [])) (inst := inst.clearBuf) rfl hp hok
  refine ⟨_, flushFrames s.cfg inst.clearBuf, runCommands_two (execBclear_eq hs) hflush, ?_, length_flushFrames _ _,
    fun r hr => ?_⟩
  · rw [State.answer_transcript, State.sent_transcript, State.eventsOf_of_hostOk (by rwa [length_flushFrames])]
    rfl
  · simpa using isFrame_flushFrames (c := s.cfg) (inst := inst.clearBuf) (by simpa using hr)

end Sys2Proof.Machine
end

section
/-! SUPPORT. Which commands read the phase: those that emit nothing go the same way in both phases (43_display_buffer.md R157). -/

namespace Sys2Proof.Machine

/-- The block in another phase (10_state.md R24). -/
def Inst.withPhase (p : Phase) (inst : Inst) : Inst := { inst with phase := p }

/-- `o'` ends as `o` does, but for the phase, which is `p`. -/
def SameInPhase (p : Phase) (o o' : Outcome) : Prop := o' = mapNext (fun t => t.setPhase p) o

/-! ### The shared operations -/

section
variable {p : Phase} {s : State}

theorem sameInPhase_respond (bytes : List Byte) : SameInPhase p (respond bytes s) (respond bytes (s.setPhase p)) := rfl

theorem sameInPhase_raise (k : ErrorKind) : SameInPhase p (raise k s) (raise k (s.setPhase p)) := rfl

theorem sameInPhase_refused (r : Refusal) : SameInPhase p (.refused r) (.refused r) := rfl

theorem sameInPhase_ite {c : Prop} [Decidable c] {a b a' b' : Outcome} (ha : SameInPhase p a a') (hb : SameInPhase p b b') :
    SameInPhase p (if c then a else b) (if c then a' else b') := by
  split
  · exact ha
  · exact hb

theorem sameInPhase_withInst {k k' : Inst → Outcome} (hk : ∀ inst, SameInPhase p (k inst) (k' (inst.withPhase p))) :
    SameInPhase p (withInst s k) (withInst (s.setPhase p) k') := by
  cases hs : s.inst with
  | none =>
    rw [withInst_none hs, withInst_none (by simp [hs])]
    exact sameInPhase_refused _
  | some inst =>
    have hs' : (s.setPhase p).inst = some (inst.withPhase p) := by simp [hs, Inst.withPhase]
    rw [withInst_some hs, withInst_some hs']
    exact hk inst

theorem sameInPhase_inMode {m : Mode} {k k' : Inst → Outcome} (hk : ∀ inst, SameInPhase p (k inst) (k' (inst.withPhase p))) :
    SameInPhase p (inMode m s k) (inMode m (s.setPhase p) k') :=
  sameInPhase_withInst fun inst => sameInPhase_ite (hk inst) (sameInPhase_refused _)

theorem sameInPhase_withScroll {inst : Inst} {k k' : ScrollState → Outcome} (hk : ∀ st, SameInPhase p (k st) (k' st)) :
    SameInPhase p (withScroll inst k) (withScroll (inst.withPhase p) k') := by
  unfold withScroll
  simp only [Inst.withPhase]
  split
  · exact sameInPhase_refused _
  · exact hk _

theorem sameInPhase_access {α : Type} {x : Except Fault α} {k k' : α → Outcome} (hk : ∀ v, SameInPhase p (k v) (k' v)) :
    SameInPhase p (access x k) (access x k') := by
  cases x with
  | error f => rfl
  | ok v => exact hk v

/-- A write that gives the same block in both phases ends a command in the same way in both. -/
theorem sameInPhase_write {x x' : Except Fault Inst} (hx : x' = x.map (Inst.withPhase p)) :
    SameInPhase p (access x fun j => respond [] (s.setInst j)) (access x' fun j => respond [] ((s.setPhase p).setInst j)) := by
  subst hx
  cases x <;> rfl

end

/-! ### The buffer writes -/

theorem memWrite_withPhase (p : Phase) (inst : Inst) (a : Nat) (v : Byte) :
    memWrite (inst.withPhase p) a v = (memWrite inst a v).map (Inst.withPhase p) := by
  by_cases ha : a < 8 * inst.n <;> simp [memWrite, Inst.withPhase, ha, Except.map]

theorem memWriteBlock_withPhase (p : Phase) (inst : Inst) (a : Nat) (vs : List Byte) :
    memWriteBlock (inst.withPhase p) a vs = (memWriteBlock inst a vs).map (Inst.withPhase p) := by
  induction vs generalizing inst a with
  | nil => rfl
  | cons v vs ih =>
    simp only [memWriteBlock, memWrite_withPhase]
    cases memWrite inst a v with
    | error f => rfl
    | ok j => exact ih j (a + 1)

theorem writeWindow_withPhase (p : Phase) (c : Config) (st : ScrollState) (d k : Nat) (inst : Inst) :
    writeWindow c st d k (inst.withPhase p) = (writeWindow c st d k inst).map (Inst.withPhase p) := by
  induction k generalizing d inst with
  | zero => rfl
  | succ k ih =>
    simp only [writeWindow, memWriteBlock_withPhase]
    cases memWriteBlock inst (bufAddr d 0) (windowRows c st d) with
    | error f => rfl
    | ok j => exact ih (d + 1) j

/-! ### Every command that emits nothing -/

theorem sameInPhase_exec {i : Instr} (hi : i.emits = false) (hnew : ∀ n mode, i ≠ .new n mode) (p : Phase) (s : State) :
    SameInPhase p (exec i s) (exec i (s.setPhase p)) := by
  cases i with
  | new n mode => exact absurd rfl (hnew n mode)
  | writeOne | writeBcast | writeAll | init | pclear | flush | setIntensity => cases hi
  | deviceCount | bclear | glyphFor => exact sameInPhase_withInst fun _ => rfl
  | setPixel dev row col on =>
    exact sameInPhase_inMode fun inst => sameInPhase_ite (sameInPhase_raise _) <|
      sameInPhase_access fun _ => sameInPhase_write (memWrite_withPhase p inst _ _)
  | getPixel dev row col =>
    exact sameInPhase_inMode fun _ => sameInPhase_ite (sameInPhase_raise _) <|
      sameInPhase_access fun _ => sameInPhase_respond _
  | setDigit dev pos ch dp =>
    exact sameInPhase_inMode fun inst => sameInPhase_ite (sameInPhase_raise _) <|
      sameInPhase_write (memWrite_withPhase p inst _ _)
  | writeGlyph dev roff bitmap =>
    exact sameInPhase_withInst fun inst => sameInPhase_ite (sameInPhase_raise _) <|
      sameInPhase_write (memWriteBlock_withPhase p inst _ _)
  | getRow dev row =>
    exact sameInPhase_withInst fun _ => sameInPhase_ite (sameInPhase_raise _) <|
      sameInPhase_access fun _ => sameInPhase_respond _
  | glyphForStrict ch =>
    exact sameInPhase_withInst fun _ => sameInPhase_ite (sameInPhase_respond _) (sameInPhase_raise _)
  | scrollStart tmode chars =>
    exact sameInPhase_inMode fun _ => sameInPhase_ite (sameInPhase_refused _) rfl
  | scrollStep =>
    exact sameInPhase_inMode fun inst => sameInPhase_withScroll fun st => sameInPhase_ite (sameInPhase_respond _) <|
      sameInPhase_write (writeWindow_withPhase p s.cfg (advance inst.n st) 0 inst.n
        { inst with scroll := some (advance inst.n st) })
  | scrollFinished => exact sameInPhase_inMode fun _ => sameInPhase_withScroll fun _ => sameInPhase_respond _
  | scrollStop => exact sameInPhase_inMode fun _ => rfl

/-- Settles O53: no command that emits nothing reads the phase (`sameInPhase_exec`), and `FLUSH` asks for it first. -/
theorem ungatedCommandsDoNotReadThePhase : Obligations.UngatedCommandsDoNotReadThePhase :=
  ⟨fun _ s p hi hnew => sameInPhase_exec hi hnew p s, fun _ _ => execFlush_uninitialized⟩

end Sys2Proof.Machine
end

section
/-! SUPPORT. Proofs about the font table: `GLYPH_FOR` and `GLYPH_FOR_STRICT` (44_font_table.md). -/

namespace Sys2Proof.Machine

/-! ### The lookups -/

section
variable {c : Config} {ch : Char}

theorem glyphBytes_matrix_some {g : Glyph} (h : c.fontM.lookup ch = some g) : glyphBytes c .matrix ch = g.toList := by
  simp [glyphBytes, glyphM, h]

/-- A character without a matrix glyph reads as the blank glyph (44_font_table.md R171). -/
theorem glyphBytes_matrix_none (h : c.fontM.lookup ch = none) : glyphBytes c .matrix ch = [0, 0, 0, 0, 0, 0, 0, 0] := by
  simp only [glyphBytes, glyphM, h, Option.getD_none]
  decide

theorem glyphBytes_digit_some {seg : Byte} (h : c.fontD.lookup ch = some seg) : glyphBytes c .digit ch = [seg] := by
  simp [glyphBytes, glyphD, h]

/-- A character without a segment code reads as 0x00 (44_font_table.md R171). -/
theorem glyphBytes_digit_none (h : c.fontD.lookup ch = none) : glyphBytes c .digit ch = [0] := by
  simp [glyphBytes, glyphD, h]

end

/-! ### The commands -/

section
variable {s : State} {inst : Inst} {ch : Char}

/-- `GLYPH_FOR` answers the lookup of the mode, whatever the character (44_font_table.md R170). -/
theorem exec_glyphFor (hs : s.inst = some inst) (ch : Char) :
    exec (.glyphFor ch) s = .next (s.answer (.ok (glyphBytes s.cfg inst.mode ch))) := by
  rw [exec, execGlyphFor, withInst_some hs, respond_eq]

theorem exec_glyphForStrict_supported (hs : s.inst = some inst) (h : supported s.cfg inst.mode ch = true) :
    exec (.glyphForStrict ch) s = .next (s.answer (.ok (glyphBytes s.cfg inst.mode ch))) := by
  rw [exec, execGlyphForStrict, withInst_some hs, if_pos h, respond_eq]

theorem exec_glyphForStrict_unsupported (hs : s.inst = some inst) (h : supported s.cfg inst.mode ch = false) :
    exec (.glyphForStrict ch) s = .next (s.answer (.error .unsupportedCharacter)) := by
  rw [exec, execGlyphForStrict, withInst_some hs, if_neg (Bool.eq_false_iff.1 h), raise_eq]

end

/-- Settles O30: `GLYPH_FOR` answers the lookup of the mode, which is the font's entry, or the blank where there is none. -/
theorem glyphForAnswersTheGlyphOrBlank : Obligations.GlyphForAnswersTheGlyphOrBlank := by
  refine ⟨fun ch => decodingAnEncodedCommandGivesItBack (.glyphFor ch) rfl, fun ch s inst hs => ⟨fun hm => ?_, fun hm => ?_⟩⟩
  · rw [exec_glyphFor hs, hm]
    cases h : s.cfg.fontM.lookup ch with
    | none => rw [glyphBytes_matrix_none h]
    | some g => rw [glyphBytes_matrix_some h]
  · rw [exec_glyphFor hs, hm]
    cases h : s.cfg.fontD.lookup ch with
    | none => rw [glyphBytes_digit_none h]
    | some seg => rw [glyphBytes_digit_some h]

/-- Settles O31: the statement's condition is `supported`, by which `GLYPH_FOR_STRICT` branches; where it holds, the answer
is `GLYPH_FOR`'s (`exec_glyphFor`). -/
theorem glyphForStrictFailsOnUnsupported : Obligations.GlyphForStrictFailsOnUnsupported := by
  refine ⟨fun ch => decodingAnEncodedCommandGivesItBack (.glyphForStrict ch) rfl, fun ch s inst hs => ⟨fun h => ?_, fun h => ?_⟩⟩
  · have hstrict := exec_glyphForStrict_supported (ch := ch) hs h
    exact ⟨hstrict.trans (exec_glyphFor hs ch).symm, _, hstrict⟩
  · exact exec_glyphForStrict_unsupported hs h

end Sys2Proof.Machine
end

section
/-! SUPPORT. Proofs about the scroll engine: the window, one scroll step, runs of scroll steps, and the four commands
(45_scroll_engine.md). -/

namespace Sys2Proof.Machine

/-! ### The window (45_scroll_engine.md R193, R195, R196) -/

section
variable {c : Config} {st : ScrollState} {o d r col : Nat}

/-- A strip column is lit in row `r` where the strip's pixel is (45_scroll_engine.md R193). -/
theorem getLsbD_stripCol (c : Config) (chars : List Char) (j : Nat) (hr : r < 8) :
    (stripCol c chars j).getLsbD r = true ↔ StripPixel c chars j r := by
  by_cases hcol : j % (8 + c.gap) < 8
  · cases hch : chars[j / (8 + c.gap)]? with
    | none => simp [stripCol, StripPixel, glyphW, hcol, hch]
    | some ch => simp [stripCol, StripPixel, glyphW, hcol, hch, getLsbD_glyphCol _ _ hr]
  · simp [stripCol, StripPixel, glyphW, hcol]

theorem winIndex_loop {j : Nat} (ht : st.tmode = .loop) (hw : st.width ≠ 0) : winIndex st o j = some ((o + j) % st.width) := by
  simp only [winIndex, ht, if_neg hw]

theorem winIndex_loop_empty {j : Nat} (ht : st.tmode = .loop) (hw : st.width = 0) : winIndex st o j = none := by
  simp only [winIndex, ht, if_pos hw]

/-- The two modes that do not wrap show the strip from the offset on. -/
theorem winIndex_of_ne_loop {j : Nat} (ht : st.tmode ≠ .loop) :
    winIndex st o j = if o + j < st.width then some (o + j) else none := by
  cases hm : st.tmode with
  | loop => exact absurd hm ht
  | bounce | once => simp only [winIndex, hm]

/-- A window pixel that shows a strip column is the strip's pixel. -/
theorem getLsbD_winRow_of_some {i : Nat} (h : winIndex st o (8 * d + col) = some i) (hr : r < 8) (hcol : col < 8) :
    (winRow c st o d r).getLsbD (7 - col) = true ↔ StripPixel c st.chars i r := by
  rw [getLsbD_winRow c st o d hcol, winCol, h]
  exact getLsbD_stripCol c st.chars i hr

/-- A window pixel that shows no strip column is dark. -/
theorem getLsbD_winRow_of_none (h : winIndex st o (8 * d + col) = none) (hcol : col < 8) :
    (winRow c st o d r).getLsbD (7 - col) = false := by
  rw [getLsbD_winRow c st o d hcol, winCol, h]
  exact BitVec.getLsbD_zero

end

/-- Settles O35, by the strip column that the window column shows in each mode. -/
theorem windowPixelIsTheStripPixel : Obligations.WindowPixelIsTheStripPixel := fun _ _ _ _ _ _ hr hcol =>
  ⟨fun ht hw => getLsbD_winRow_of_none (winIndex_loop_empty ht hw) hcol,
   fun ht hw => getLsbD_winRow_of_some (winIndex_loop ht hw) hr hcol,
   fun ht hin => getLsbD_winRow_of_some ((winIndex_of_ne_loop ht).trans (if_pos hin)) hr hcol,
   fun ht hout => getLsbD_winRow_of_none ((winIndex_of_ne_loop ht).trans (if_neg (Nat.not_lt.2 hout))) hcol⟩

/-- Settles O36: a column read is below the scroll's width, which is the strip's, and there it has its character. -/
theorem windowReadsStayInsideTheStrip : Obligations.WindowReadsStayInsideTheStrip := by
  intro c n st o j i hI h
  have hi : i < stripWidth c st.chars := hI.width_eq ▸ winIndex_lt h
  exact ⟨hi, stripCol_char hi⟩

/-! ### `advance`, an equation per case (45_scroll_engine.md R197) -/

/-- M of R197 is what the strip has beyond the window. -/
theorem bounceLimit_eq (n : Nat) (st : ScrollState) : bounceLimit n st = st.width - 8 * n := by
  unfold bounceLimit windowWidth glyphW
  split <;> omega

section
variable {n : Nat} {st : ScrollState}

theorem advance_loop_empty (ht : st.tmode = .loop) (hw : st.width = 0) :
    advance n st = { st with offset := 0, finished := false } := by
  simp only [advance, ht, if_pos hw]

theorem advance_loop (ht : st.tmode = .loop) (hw : st.width ≠ 0) :
    advance n st = { st with offset := (st.offset + 1) % st.width, finished := false } := by
  simp only [advance, ht, if_neg hw]

theorem advance_bounce_fits (ht : st.tmode = .bounce) (hw : st.width ≤ 8 * n) :
    advance n st = { st with offset := 0, finished := false } := by
  have hm : st.width - 8 * n = 0 := by omega
  simp only [advance, ht, bounceLimit_eq, if_pos hm]

theorem advance_bounce_out (ht : st.tmode = .bounce) (hd : st.dir = .plus) (ho : st.offset < st.width - 8 * n) :
    advance n st = { st with offset := st.offset + 1, dir := .plus, finished := false } := by
  have hm : st.width - 8 * n ≠ 0 := by omega
  simp only [advance, ht, bounceLimit_eq, if_neg hm, hd, if_pos ho]

theorem advance_bounce_turn_back (ht : st.tmode = .bounce) (hw : 8 * n < st.width) (hd : st.dir = .plus)
    (ho : st.width - 8 * n ≤ st.offset) :
    advance n st = { st with offset := st.offset - 1, dir := .minus, finished := false } := by
  have hm : st.width - 8 * n ≠ 0 := by omega
  simp only [advance, ht, bounceLimit_eq, if_neg hm, hd, if_neg (Nat.not_lt.2 ho)]

theorem advance_bounce_back (ht : st.tmode = .bounce) (hw : 8 * n < st.width) (hd : st.dir = .minus) (ho : 0 < st.offset) :
    advance n st = { st with offset := st.offset - 1, dir := .minus, finished := false } := by
  have hm : st.width - 8 * n ≠ 0 := by omega
  simp only [advance, ht, bounceLimit_eq, if_neg hm, hd, if_pos ho]

theorem advance_bounce_turn_out (ht : st.tmode = .bounce) (hw : 8 * n < st.width) (hd : st.dir = .minus) (ho : st.offset = 0) :
    advance n st = { st with offset := st.offset + 1, dir := .plus, finished := false } := by
  have hm : st.width - 8 * n ≠ 0 := by omega
  simp only [advance, ht, bounceLimit_eq, if_neg hm, hd, if_neg (Nat.not_lt.2 ho.le)]

theorem advance_once (ht : st.tmode = .once) :
    advance n st = { st with offset := min (st.offset + 1) st.width,
                             finished := decide (min (st.offset + 1) st.width = st.width) } := by
  simp only [advance, ht]

end

/-- A step changes only a scroll's offset, direction and finished flag (45_scroll_engine.md R197). -/
theorem advance_eq (n : Nat) (st : ScrollState) :
    ∃ offset dir finished, advance n st = { st with offset := offset, dir := dir, finished := finished } := by
  unfold advance
  split
  · split <;> exact ⟨_, _, _, rfl⟩
  · split
    · exact ⟨_, _, _, rfl⟩
    · split <;> split <;> exact ⟨_, _, _, rfl⟩
  · exact ⟨_, _, _, rfl⟩

@[simp] theorem advance_chars (n : Nat) (st : ScrollState) : (advance n st).chars = st.chars := by
  obtain ⟨_, _, _, h⟩ := advance_eq n st
  rw [h]

@[simp] theorem advance_tmode (n : Nat) (st : ScrollState) : (advance n st).tmode = st.tmode := by
  obtain ⟨_, _, _, h⟩ := advance_eq n st
  rw [h]

@[simp] theorem advance_width (n : Nat) (st : ScrollState) : (advance n st).width = st.width := by
  obtain ⟨_, _, _, h⟩ := advance_eq n st
  rw [h]

/-- Only once mode ever finishes (45_scroll_engine.md R197). -/
theorem advance_finished {n : Nat} {st : ScrollState} (ht : st.tmode ≠ .once) : (advance n st).finished = false := by
  unfold advance
  split
  · split <;> rfl
  · split
    · rfl
    · split <;> split <;> rfl
  · exact absurd ‹_› ht

/-! ### `SCROLL_START`, `SCROLL_FINISHED` and `SCROLL_STOP` -/

theorem runCommands_cons {i : Instr} {s t : State} (h : exec i s = .next t) (is : List Instr) :
    runCommands (i :: is) s = runCommands is t := by
  rw [runCommands, h]

@[simp] theorem stripWidth_nil (c : Config) : stripWidth c [] = 0 := rfl

theorem stripWidth_of_ne_nil (c : Config) {chars : List Char} (h : chars ≠ []) :
    stripWidth c chars = chars.length * 8 + (chars.length - 1) * c.gap := by
  have hlen : chars.length ≠ 0 := fun h0 => h (List.length_eq_zero_iff.1 h0)
  rw [stripWidth, if_neg hlen, glyphW]

theorem stripWidth_ne_zero (c : Config) {chars : List Char} (h : chars ≠ []) : stripWidth c chars ≠ 0 := by
  have hlen : 0 < chars.length := List.length_pos_iff.2 h
  rw [stripWidth_of_ne_nil c h]
  omega

theorem withScroll_some {inst : Inst} {st : ScrollState} (h : inst.scroll = some st) (k : ScrollState → Outcome) :
    withScroll inst k = k st := by
  simp [withScroll, h]

section
variable {s : State} {inst : Inst}

theorem exec_scrollStart (hs : s.inst = some inst) (hm : inst.mode = .matrix) (tmode : TMode) {chars : List Char}
    (hlen : chars.length ≤ min 255 s.cfg.maxScrollChars) :
    exec (.scrollStart tmode chars) s =
      .next ((s.setInst { inst with scroll := some (freshScroll s.cfg tmode chars) }).answer (.ok [])) := by
  rw [exec, execScrollStart, inMode_some hs hm, if_neg (Nat.not_lt.2 hlen), respond_eq]

theorem exec_scrollFinished {st : ScrollState} (hs : s.inst = some inst) (hm : inst.mode = .matrix)
    (hst : inst.scroll = some st) : exec .scrollFinished s = .next (s.answer (.ok [flagByte st.finished])) := by
  rw [exec, execScrollFinished, inMode_some hs hm, withScroll_some hst, respond_eq]

theorem exec_scrollStop (hs : s.inst = some inst) (hm : inst.mode = .matrix) :
    exec .scrollStop s = .next ((s.setInst { inst with scroll := none }).answer (.ok [])) := by
  rw [exec, execScrollStop, inMode_some hs hm, respond_eq]

end

/-- Settles O32: the new scroll is `freshScroll`, whose width is the strip's. -/
theorem scrollStartCreatesTheScroll : Obligations.ScrollStartCreatesTheScroll := by
  refine ⟨fun tmode chars hlen => decodingAnEncodedCommandGivesItBack (.scrollStart tmode chars) (decide_eq_true hlen),
    fun tmode chars s inst hs => ⟨fun hm => ?_, fun hm => ⟨fun hlong => ?_, fun h255 hmax => ?_⟩⟩⟩
  · obtain ⟨-, -, hrefused, -⟩ := (commandsTheInstanceDoesNotAdmitAreRefused s inst hs).1 hm 0 0 0 true tmode chars
    exact ⟨_, hrefused⟩
  · exact ⟨_, execScrollStart_too_long hs hm tmode (by omega)⟩
  · refine ⟨freshScroll s.cfg tmode chars, exec_scrollStart hs hm tmode (Nat.le_min.2 ⟨h255, hmax⟩), rfl, rfl, rfl, rfl,
      fun hnil => ?_, stripWidth_of_ne_nil s.cfg, ?_⟩
    · rw [hnil]; rfl
    · simp [freshScroll]

/-- Settles O40: the answer is the flag's byte, and only a once scroll of a run is ever finished. -/
theorem scrollFinishedAnswersTheFlag : Obligations.ScrollFinishedAnswersTheFlag := by
  refine ⟨decodingAnEncodedCommandGivesItBack .scrollFinished rfl, fun s inst hs => ⟨fun hm => ?_, fun hm =>
    ⟨fun hnone => ?_, fun st hst => ⟨flagByte st.finished, exec_scrollFinished hs hm hst, fun hf => ?_, fun hf => ?_,
      fun hI hmode => ?_⟩⟩⟩⟩
  · obtain ⟨-, -, -, -, hrefused, -⟩ := (commandsTheInstanceDoesNotAdmitAreRefused s inst hs).1 hm 0 0 0 true .loop []
    exact ⟨_, hrefused⟩
  · obtain ⟨-, -, -, -, hrefused⟩ := commandsTheInstanceDoesNotAdmitAreRefused s inst hs
    exact ⟨_, (hrefused hm hnone).2⟩
  · rw [hf]; rfl
  · rw [hf]; rfl
  · have hf : st.finished = false := Bool.eq_false_iff.2 fun h => hmode (hI.finished_iff.1 h).1
    rw [hf]; rfl

/-- Settles O41: what `SCROLL_STOP` leaves has no scroll, and so admits no `SCROLL_STEP`. -/
theorem scrollStopDiscardsTheScroll : Obligations.ScrollStopDiscardsTheScroll := by
  refine ⟨decodingAnEncodedCommandGivesItBack .scrollStop rfl, fun s inst hs => ⟨fun hm => ?_, fun hm =>
    ⟨exec_scrollStop hs hm, ?_⟩⟩⟩
  · obtain ⟨-, -, -, -, -, hrefused⟩ := (commandsTheInstanceDoesNotAdmitAreRefused s inst hs).1 hm 0 0 0 true .loop []
    exact ⟨_, hrefused⟩
  · obtain ⟨-, -, -, -, hrefused⟩ := commandsTheInstanceDoesNotAdmitAreRefused
      ((s.setInst { inst with scroll := none }).answer (.ok [])) { inst with scroll := none } rfl
    rw [runCommands_cons (exec_scrollStop hs hm), runCommands, (hrefused hm rfl).1]
    exact ⟨_, rfl⟩

/-! ### `SCROLL_STEP` -/

section
variable {s : State} {inst : Inst} {st : ScrollState}

theorem exec_scrollStep_finished (hs : s.inst = some inst) (hm : inst.mode = .matrix) (hst : inst.scroll = some st)
    (hend : st.tmode = .once ∧ st.finished = true) : exec .scrollStep s = .next (s.answer (.ok [])) := by
  rw [exec, execScrollStep, inMode_some hs hm, withScroll_some hst, if_pos hend, respond_eq]

/-- Any other scroll advances, and the window at its new offset fills the buffer of the chain's devices, address by address
(45_scroll_engine.md R201). -/
theorem exec_scrollStep_advance (hs : s.inst = some inst) (hm : inst.mode = .matrix) (hst : inst.scroll = some st)
    (hgo : ¬ (st.tmode = .once ∧ st.finished = true)) :
    ∃ m, exec .scrollStep s =
        .next ((s.setInst { inst with buf := m, scroll := some (advance inst.n st) }).answer (.ok [])) ∧
      (Memory.wf inst.buf = true → Memory.wf m = true ∧ ∀ a, Memory.read m a =
        if a < 8 * inst.n then winRow s.cfg (advance inst.n st) (advance inst.n st).offset (a / 8) (a % 8)
        else Memory.read inst.buf a) := by
  obtain ⟨m, hwindow, hread, -⟩ := writeWindow_ok s.cfg (advance inst.n st) (d := 0) (k := inst.n)
    (inst := { inst with scroll := some (advance inst.n st) }) (Nat.zero_add inst.n).le
  refine ⟨m, ?_, by simpa using hread⟩
  rw [exec, execScrollStep, inMode_some hs hm, withScroll_some hst, if_neg hgo, hwindow, access_ok, respond_eq]

end

/-- Settles O33, by the equations of `advance` and the window that the step writes (`exec_scrollStep_advance`). -/
theorem scrollStepAdvancesAndWritesTheWindow : Obligations.ScrollStepAdvancesAndWritesTheWindow := by
  refine ⟨decodingAnEncodedCommandGivesItBack .scrollStep rfl, fun s inst hs => ⟨fun hm => ?_, fun hm hnone => ?_,
    fun st hm hst => ⟨fun ht hf => exec_scrollStep_finished hs hm hst ⟨ht, hf⟩, fun hgo hwf => ?_⟩⟩⟩
  · obtain ⟨-, -, -, hrefused, -⟩ := (commandsTheInstanceDoesNotAdmitAreRefused s inst hs).1 hm 0 0 0 true .loop []
    exact ⟨_, hrefused⟩
  · obtain ⟨-, -, -, -, hrefused⟩ := commandsTheInstanceDoesNotAdmitAreRefused s inst hs
    exact ⟨_, (hrefused hm hnone).1⟩
  obtain ⟨m, hexec, hwindow⟩ := exec_scrollStep_advance hs hm hst hgo
  obtain ⟨hwf', hread⟩ := hwindow hwf
  refine ⟨m, advance inst.n st, hexec, advance_chars _ _, advance_tmode _ _, advance_width _ _, fun ht => ?_, fun ht => ?_,
    fun ht => ?_, hwf', fun d r hd hr => ?_, fun a ha => ?_⟩
  · by_cases hw : st.width = 0
    · simp [advance_loop_empty ht hw, hw]
    · simp [advance_loop ht hw, hw]
  · refine ⟨advance_finished (by simp [ht]), fun hw => ?_, fun hw => ⟨fun hd ho => ?_, fun hd ho => ?_, fun hd ho => ?_,
      fun hd ho => ?_⟩⟩
    · rw [advance_bounce_fits ht hw]
      exact ⟨rfl, rfl⟩
    · rw [advance_bounce_out ht hd ho]
      exact ⟨rfl, rfl⟩
    · rw [advance_bounce_turn_back ht hw hd ho]
      exact ⟨rfl, rfl⟩
    · rw [advance_bounce_back ht hw hd ho]
      exact ⟨rfl, rfl⟩
    · rw [advance_bounce_turn_out ht hw hd ho]
      exact ⟨rfl, rfl⟩
  · simp [advance_once ht]
  · rw [hread, if_pos (by omega), show (8 * d + r) / 8 = d by omega, show (8 * d + r) % 8 = r by omega]
  · rw [hread, if_neg (Nat.not_lt.2 ha)]

/-! ### Runs of `SCROLL_STEP` -/

/-- The scroll after a `SCROLL_STEP`: a finished once scroll stays as it is (45_scroll_engine.md R201). -/
def ScrollState.stepped (n : Nat) (st : ScrollState) : ScrollState :=
  if st.tmode = .once ∧ st.finished = true then st else advance n st

section
variable {s : State} {inst : Inst} {st : ScrollState}

theorem exec_scrollStep_stepped (hs : s.inst = some inst) (hm : inst.mode = .matrix) (hst : inst.scroll = some st) :
    ∃ t m, exec .scrollStep s = .next t ∧ t.inst = some { inst with buf := m, scroll := some (st.stepped inst.n) } := by
  by_cases hend : st.tmode = .once ∧ st.finished = true
  · refine ⟨_, inst.buf, exec_scrollStep_finished hs hm hst hend, ?_⟩
    rw [State.answer_inst, hs, ScrollState.stepped, if_pos hend, ← hst]
  · obtain ⟨m, hexec, -⟩ := exec_scrollStep_advance hs hm hst hend
    refine ⟨_, m, hexec, ?_⟩
    rw [ScrollState.stepped, if_neg hend]
    rfl

/-- What a scroll step keeps up from one step count to the next holds after any number of steps. -/
theorem runCommands_scrollSteps {P : Nat → ScrollState → Prop} (hP : ∀ j st, P j st → P (j + 1) (st.stepped inst.n))
    (k : Nat) {j : Nat} (hs : s.inst = some inst) (hm : inst.mode = .matrix) (hst : inst.scroll = some st) (hj : P j st) :
    ∃ t st', runCommands (List.replicate k .scrollStep) s = .next t ∧ t.scroll? = some st' ∧ P (j + k) st' := by
  induction k generalizing s inst st j with
  | zero => exact ⟨s, st, rfl, by rw [State.scroll?, hs]; exact hst, hj⟩
  | succ k ih =>
    obtain ⟨t, m, hexec, ht⟩ := exec_scrollStep_stepped hs hm hst
    rw [List.replicate_succ, runCommands_cons hexec, Nat.add_comm k, ← Nat.add_assoc]
    exact ih (inst := { inst with buf := m, scroll := some (st.stepped inst.n) }) hP ht hm rfl (hP j st hj)

/-- What holds of the new scroll and is kept up by every step holds after `SCROLL_START` and `k` steps. -/
theorem runCommands_scroll {P : Nat → ScrollState → Prop} {tmode : TMode} {chars : List Char} (hs : s.inst = some inst)
    (hm : inst.mode = .matrix) (hlen : chars.length ≤ min 255 s.cfg.maxScrollChars) (h0 : P 0 (freshScroll s.cfg tmode chars))
    (hP : ∀ j st, P j st → P (j + 1) (st.stepped inst.n)) (k : Nat) :
    ∃ t st, runCommands (.scrollStart tmode chars :: List.replicate k .scrollStep) s = .next t ∧
      t.scroll? = some st ∧ P k st := by
  have hrun := runCommands_scrollSteps (inst := { inst with scroll := some (freshScroll s.cfg tmode chars) })
    (s := (s.setInst { inst with scroll := some (freshScroll s.cfg tmode chars) }).answer (.ok [])) hP k rfl hm rfl h0
  rwa [← runCommands_cons (exec_scrollStart hs hm tmode hlen), Nat.zero_add] at hrun

end

/-! ### Where a scroll is after `k` steps (45_scroll_engine.md R197, R209) -/

section
variable {n w k : Nat} {st : ScrollState}

theorem stepped_of_ne_once (ht : st.tmode ≠ .once) : st.stepped n = advance n st :=
  if_neg fun h => ht h.1

/-- A once scroll over a strip of `w` columns after `k` steps. -/
structure ScrollState.OnceAfter (w k : Nat) (st : ScrollState) : Prop where
  tmode_eq : st.tmode = .once
  width_eq : st.width = w
  offset_eq : st.offset = min k w
  finished_iff : st.finished = true ↔ w ≤ k

theorem ScrollState.OnceAfter.fresh (c : Config) (chars : List Char) :
    (freshScroll c .once chars).OnceAfter (stripWidth c chars) 0 :=
  ⟨rfl, rfl, (Nat.zero_min _).symm, by simp [freshScroll]⟩

theorem ScrollState.OnceAfter.stepped (h : st.OnceAfter w k) : (st.stepped n).OnceAfter w (k + 1) := by
  obtain ⟨ht, hw, ho, hf⟩ := h
  by_cases hend : st.tmode = .once ∧ st.finished = true
  · have hk : w ≤ k := hf.1 hend.2
    rw [ScrollState.stepped, if_pos hend]
    exact ⟨ht, hw, by omega, iff_of_true hend.2 (by omega)⟩
  · have hk : k < w := by
      by_contra hle
      exact hend ⟨ht, hf.2 (by omega)⟩
    rw [ScrollState.stepped, if_neg hend, advance_once ht]
    exact ⟨ht, hw, by simp only; omega, by simp only [decide_eq_true_eq]; omega⟩

/-- A loop scroll over a strip of `w` columns after `k` steps. -/
structure ScrollState.LoopAfter (w k : Nat) (st : ScrollState) : Prop where
  tmode_eq : st.tmode = .loop
  width_eq : st.width = w
  offset_eq : st.offset = if w = 0 then 0 else k % w
  finished_eq : st.finished = false

theorem ScrollState.LoopAfter.fresh (c : Config) (chars : List Char) :
    (freshScroll c .loop chars).LoopAfter (stripWidth c chars) 0 :=
  ⟨rfl, rfl, by simp [freshScroll], rfl⟩

theorem ScrollState.LoopAfter.stepped (h : st.LoopAfter w k) : (st.stepped n).LoopAfter w (k + 1) := by
  obtain ⟨ht, hw, ho, -⟩ := h
  rw [stepped_of_ne_once (by simp [ht])]
  by_cases h0 : w = 0
  · rw [advance_loop_empty ht (hw.trans h0)]
    exact ⟨ht, hw, (if_pos h0).symm, rfl⟩
  · rw [advance_loop ht (hw ▸ h0)]
    refine ⟨ht, hw, ?_, rfl⟩
    rw [if_neg h0] at ho ⊢
    rw [ho, hw, Nat.mod_add_mod]

/-- Where a bounce between 0 and `m` is after `k` steps, a pass out and back being `2 * m` of them: on the way out it is `offset`
steps past the end of a pass, on the way back `offset` steps short of the next. -/
inductive BounceAt (m k offset : Nat) : Dir → Prop where
  | out (passes : Nat) (hk : k = 2 * m * passes + offset) (ho : offset ≤ m) : BounceAt m k offset .plus
  | back (passes : Nat) (hk : k + offset = 2 * m * passes) (ho : offset < m) : BounceAt m k offset .minus

/-- The offset of a bounce, read off the steps taken. -/
theorem BounceAt.offset_eq {m offset : Nat} {dir : Dir} (h : BounceAt m k offset dir) (hm : 0 < m) :
    offset = if k % (2 * m) ≤ m then k % (2 * m) else 2 * m - k % (2 * m) := by
  cases h with
  | out passes hk ho =>
    have hmod : k % (2 * m) = offset := by
      rw [hk, Nat.mul_add_mod, Nat.mod_eq_of_lt (by omega)]
    rw [hmod, if_pos ho]
  | back passes hk ho =>
    rcases Nat.eq_zero_or_pos offset with h0 | hpos
    · have hmod : k % (2 * m) = 0 := by
        rw [h0, Nat.add_zero] at hk
        rw [hk, Nat.mul_mod_right]
      rw [hmod, if_pos (Nat.zero_le m), h0]
    · obtain ⟨p, rfl⟩ : ∃ p, passes = p + 1 := Nat.exists_eq_succ_of_ne_zero (by rintro rfl; omega)
      have hmod : k % (2 * m) = 2 * m - offset := by
        have hk' : k = 2 * m * p + (2 * m - offset) := by rw [Nat.mul_succ] at hk; omega
        rw [hk', Nat.mul_add_mod, Nat.mod_eq_of_lt (by omega)]
      rw [hmod, if_neg (by omega)]
      omega

/-- A bounce scroll over a strip of `w` columns on `n` devices after `k` steps: at 0 where the strip fits the window, and
otherwise between 0 and `w - 8 * n`. -/
structure ScrollState.BounceAfter (n w k : Nat) (st : ScrollState) : Prop where
  tmode_eq : st.tmode = .bounce
  width_eq : st.width = w
  finished_eq : st.finished = false
  fits : w ≤ 8 * n → st.offset = 0
  bounces : 8 * n < w → BounceAt (w - 8 * n) k st.offset st.dir

theorem ScrollState.BounceAfter.fresh (c : Config) (n : Nat) (chars : List Char) :
    (freshScroll c .bounce chars).BounceAfter n (stripWidth c chars) 0 :=
  ⟨rfl, rfl, rfl, fun _ => rfl, fun _ => .out 0 rfl (Nat.zero_le _)⟩

theorem ScrollState.BounceAfter.stepped (h : st.BounceAfter n w k) : (st.stepped n).BounceAfter n w (k + 1) := by
  obtain ⟨ht, rfl, -, -, hbounces⟩ := h
  rw [stepped_of_ne_once (by simp [ht])]
  by_cases hw : st.width ≤ 8 * n
  · rw [advance_bounce_fits ht hw]
    exact ⟨ht, rfl, rfl, fun _ => rfl, fun hlt => absurd hw (Nat.not_le.2 hlt)⟩
  · have hlt : 8 * n < st.width := Nat.not_le.1 hw
    have hat := hbounces hlt
    suffices hnext : BounceAt (st.width - 8 * n) (k + 1) (advance n st).offset (advance n st).dir from
      ⟨by simp [ht], by simp, advance_finished (by simp [ht]), fun hle => absurd hle hw, fun _ => hnext⟩
    generalize hd : st.dir = dir at hat
    cases hat with
    | out passes hk ho =>
      by_cases hend : st.offset < st.width - 8 * n
      · rw [advance_bounce_out ht hd hend]
        exact .out passes (by simp only; omega) (by simp only; omega)
      · rw [advance_bounce_turn_back ht hlt hd (Nat.not_lt.1 hend)]
        exact .back (passes + 1) (by simp only [Nat.mul_succ]; omega) (by simp only; omega)
    | back passes hk ho =>
      rcases Nat.eq_zero_or_pos st.offset with hend | hpos
      · rw [advance_bounce_turn_out ht hlt hd hend]
        exact .out passes (by simp only; omega) (by simp only; omega)
      · rw [advance_bounce_back ht hlt hd hpos]
        exact .back passes (by simp only; omega) (by simp only; omega)

end

/-- Settles O37: a once scroll goes one column further with each step, until it is finished. -/
theorem onceScrollFinishesAfterWidthSteps : Obligations.OnceScrollFinishesAfterWidthSteps := by
  intro s inst chars k hs hm hlen
  obtain ⟨t, st, hrun, hst, hafter⟩ :=
    runCommands_scroll hs hm hlen (ScrollState.OnceAfter.fresh s.cfg chars)
      (fun _ _ => ScrollState.OnceAfter.stepped) k
  exact ⟨t, st, hrun, hst, hafter.offset_eq, hafter.finished_iff⟩

/-- Settles O38: a loop scroll counts its steps modulo the width, which is 0 for the empty text only. -/
theorem loopScrollWrapsAtTheWidth : Obligations.LoopScrollWrapsAtTheWidth := by
  intro s inst chars k hs hm hlen
  obtain ⟨t, st, hrun, hst, hafter⟩ :=
    runCommands_scroll hs hm hlen (ScrollState.LoopAfter.fresh s.cfg chars)
      (fun _ _ => ScrollState.LoopAfter.stepped) k
  refine ⟨t, st, hrun, hst, fun hnil => ?_, fun hne => ?_, hafter.finished_eq⟩
  · rw [hafter.offset_eq, hnil, stripWidth_nil, if_pos rfl]
  · rw [hafter.offset_eq, if_neg (stripWidth_ne_zero s.cfg hne)]

/-- Settles O39: offset and direction tell where in its pass the bounce is (`BounceAt`), and the steps taken tell the offset. -/
theorem bounceScrollGoesBackAndForth : Obligations.BounceScrollGoesBackAndForth := by
  intro s inst chars k hs hm hlen
  obtain ⟨t, st, hrun, hst, hafter⟩ :=
    runCommands_scroll hs hm hlen (ScrollState.BounceAfter.fresh s.cfg inst.n chars)
      (fun _ _ => ScrollState.BounceAfter.stepped) k
  exact ⟨t, st, hrun, hst, hafter.finished_eq, hafter.fits,
    fun hlt => (hafter.bounces hlt).offset_eq (Nat.sub_pos_of_lt hlt)⟩

end Sys2Proof.Machine
end

section
/-! SUPPORT. What a command that raises an error leaves behind, and which errors each command can raise (00_scope.md R10, R11;
60_exceptions.md R221, R229). -/

namespace Sys2Proof.Machine

/-! ### The transactions up to a failing one -/

theorem State.eventsOf_append (s : State) (fs gs : List Frame) :
    s.eventsOf (fs ++ gs) = s.eventsOf fs ++ (s.sent fs).eventsOf gs := by
  induction fs generalizing s with
  | nil => simp
  | cons f fs ih => simp only [List.cons_append, State.eventsOf_cons, State.sent_cons, ih, List.append_assoc]

/-- The events of the frames up to the one the host fails: whole transactions that succeeded, then the failing one with its
Release (00_scope.md R11). -/
theorem State.eventsOf_take_of_hostFailsAt {s : State} {fs : List Frame} {k : Nat} {e : HostError} (hk : k < fs.length)
    (h : s.HostFailsAt k e) :
    s.eventsOf (fs.take (k + 1)) = okEvents (fs.take k) ++ [.acquire, .transfer fs[k] (.err e), .release] := by
  obtain ⟨hok, hfail⟩ := h
  have hlength : (fs.take k).length = k := List.length_take_of_le hk.le
  have hresult : (s.sent (fs.take k)).nextResult = .err e := by
    rw [State.nextResult_eq, State.resultAt_sent, hlength, Nat.add_zero, hfail]
  rw [List.take_succ_eq_append_getElem hk, State.eventsOf_append, State.eventsOf_of_hostOk (by rwa [hlength]),
    State.eventsOf_cons, hresult, State.eventsOf_nil, List.append_nil, transaction]

/-! ### What a command that raised an error has done -/

@[simp] theorem atEmit_scroll (i : Instr) (inst : Inst) : (atEmit i inst).scroll = inst.scroll := by
  unfold atEmit; split <;> rfl

theorem atEmit_of_ne_pclear {i : Instr} (hi : i ≠ .pclear) (inst : Inst) : atEmit i inst = inst := if_neg hi

/-- What a command that answers an error has done. -/
inductive ErrorCase (i : Instr) (s t : State) : ErrorKind → Prop where
  /-- A local error: it only answers (00_scope.md R10). -/
  | same {k : ErrorKind} (hk : ∀ e, k ≠ .transportFailure e) (ht : t = s.answer (.error k)) : ErrorCase i s t k
  /-- The host failed one of its frames, and it sent the frames up to that one (00_scope.md R11). -/
  | emit {inst : Inst} {fs : List Frame} {j : Nat} {e : HostError} (hs : s.inst = some inst) (hj : j < fs.length)
      (hfails : s.HostFailsAt j e)
      (ht : t = (((s.setInst (atEmit i inst)).sent (fs.take (j + 1))).setPhase .uninitialized).answer
        (.error (.transportFailure e))) : ErrorCase i s t (.transportFailure e)

/-- The inversion lemma of an error. -/
theorem exec_error {i : Instr} {s t : State} {k : ErrorKind} (h : exec i s = .next t)
    (hr : t.responses = s.responses ++ [.error k]) : ErrorCase i s t k := by
  cases exec_case h with
  | same r ht hlocal =>
    obtain rfl : r = .error k := by simpa [ht] using hr
    exact .same (fun e he => hlocal e (by rw [he])) ht
  | construct n mode _ _ _ _ ht => simp [ht] at hr
  | write inst j _ _ _ _ _ ht => simp [ht] at hr
  | emit inst fs _ hs _ _ _ ht =>
    rcases ht with ⟨_, rfl⟩ | ⟨j, e, hj, hfails, rfl⟩
    · simp at hr
    · obtain rfl : k = .transportFailure e := by simpa [eq_comm] using hr
      exact .emit hs hj hfails rfl

/-- A transport failure leaves the transactions that succeeded before it, and its own (60_exceptions.md R229). -/
theorem transcript_of_failure {s : State} {fs : List Frame} {k : Nat} {e : HostError} (hk : k < fs.length)
    (h : s.HostFailsAt k e) (inst : Inst) (r : Response) :
    ((((s.setInst inst).sent (fs.take (k + 1))).setPhase .uninitialized).answer r).transcript =
      s.transcript ++ okEvents (fs.take k) ++ [.acquire, .transfer fs[k] (.err e), .release] := by
  have hevents := State.eventsOf_take_of_hostFailsAt (s := s.setInst inst) hk h
  simp [hevents]

/-! ### Which errors a command can raise -/

/-- The table of R221: the command is one of those that raise the error. -/
def RaisedBy (i : Instr) : ErrorKind → Prop
  | .zeroLengthChain => ∃ mode, i = .new 0 mode
  | .indexOutOfRange =>
    (∃ dev reg val, i = .writeOne dev reg val) ∨ (∃ dev row col on, i = .setPixel dev row col on) ∨
      (∃ dev row col, i = .getPixel dev row col) ∨ (∃ dev pos ch dp, i = .setDigit dev pos ch dp) ∨
      (∃ dev roff bitmap, i = .writeGlyph dev roff bitmap) ∨ ∃ dev row, i = .getRow dev row
  | .intensityOutOfRange =>
    (∃ dev val, i = .writeOne dev .intensity val) ∨ (∃ val, i = .writeBcast .intensity val) ∨
      (∃ vals, i = .writeAll .intensity vals) ∨ ∃ v, i = .setIntensity v
  | .notInitialized =>
    (∃ dev reg val, i = .writeOne dev reg val) ∨ (∃ reg val, i = .writeBcast reg val) ∨
      (∃ reg vals, i = .writeAll reg vals) ∨ i = .flush ∨ ∃ v, i = .setIntensity v
  | .unsupportedCharacter => ∃ ch, i = .glyphForStrict ch
  | .transportFailure _ => i.emits = true

/-- An outcome that answers an error to a command begun in `s` answers one that `raised` admits. -/
def RaisesOnly (raised : ErrorKind → Prop) (s : State) (o : Outcome) : Prop :=
  ∀ t k, o = .next t → t.responses = s.responses ++ [.error k] → raised k

section
variable {raised : ErrorKind → Prop} {s : State}

theorem raisesOnly_respond {s' : State} (hs' : s'.responses = s.responses) (bytes : List Byte) :
    RaisesOnly raised s (respond bytes s') := by
  rintro t k ⟨⟩ hr
  simp [hs'] at hr

theorem raisesOnly_raise {s' : State} {k : ErrorKind} (hs' : s'.responses = s.responses) (hk : raised k) :
    RaisesOnly raised s (raise k s') := by
  rintro t k' ⟨⟩ hr
  obtain rfl : k = k' := by simpa [hs'] using hr
  exact hk

theorem raisesOnly_refused (why : Refusal) : RaisesOnly raised s (.refused why) := by
  rintro t k ⟨⟩

theorem raisesOnly_ite {c : Prop} [Decidable c] {o o' : Outcome} (ho : c → RaisesOnly raised s o)
    (ho' : RaisesOnly raised s o') : RaisesOnly raised s (if c then o else o') := by
  split
  case isTrue hc => exact ho hc
  case isFalse => exact ho'

theorem raisesOnly_withInst {k : Inst → Outcome} (hk : ∀ inst, RaisesOnly raised s (k inst)) :
    RaisesOnly raised s (withInst s k) := fun t e h hr => by
  obtain ⟨inst, -, h⟩ := withInst_next h
  exact hk inst t e h hr

theorem raisesOnly_inMode {m : Mode} {k : Inst → Outcome} (hk : ∀ inst, RaisesOnly raised s (k inst)) :
    RaisesOnly raised s (inMode m s k) := fun t e h hr => by
  obtain ⟨inst, -, -, h⟩ := inMode_next h
  exact hk inst t e h hr

theorem raisesOnly_withScroll {inst : Inst} {k : ScrollState → Outcome} (hk : ∀ st, RaisesOnly raised s (k st)) :
    RaisesOnly raised s (withScroll inst k) := fun t e h hr => by
  obtain ⟨st, -, h⟩ := withScroll_next h
  exact hk st t e h hr

theorem raisesOnly_access {α : Type} {x : Except Fault α} {k : α → Outcome} (hk : ∀ v, RaisesOnly raised s (k v)) :
    RaisesOnly raised s (access x k) := fun t e h hr => by
  obtain ⟨v, -, h⟩ := access_next h
  exact hk v t e h hr

theorem raisesOnly_requireActive {inst : Inst} {o : Outcome} (hphase : raised .notInitialized) (ho : RaisesOnly raised s o) :
    RaisesOnly raised s (requireActive inst s o) := by
  unfold requireActive
  split
  · exact raisesOnly_raise rfl hphase
  · exact ho

/-- The frames are sent from `s'`, which `PCLEAR` has given a zero buffer. -/
theorem raisesOnly_emitThen {s' : State} {fs : List Frame} {k : State → Outcome} (hs' : s'.responses = s.responses)
    (hhost : ∀ e, raised (.transportFailure e)) (hk : RaisesOnly raised s (k (s'.sent fs))) :
    RaisesOnly raised s (emitThen fs s' k) := fun t e h hr => by
  rcases emitThen_next h with ⟨-, h⟩ | ⟨j, e', -, -, rfl⟩
  · exact hk t e h hr
  · exact raisesOnly_raise (s' := (s'.sent (fs.take (j + 1))).setPhase .uninitialized) hs' (hhost e') _ e rfl hr

/-- A gated command that sends frames and answers no bytes (41_register_protocol.md R104). -/
theorem raisesOnly_gated (hphase : raised .notInitialized) (hhost : ∀ e, raised (.transportFailure e)) (inst : Inst)
    (fs : List Frame) : RaisesOnly raised s (requireActive inst s (emitThen fs s (respond []))) :=
  raisesOnly_requireActive hphase (raisesOnly_emitThen rfl hhost (raisesOnly_respond rfl []))

theorem raisesOnly_broadcast {reg : Register} {val : Byte} (hintensity : reg = .intensity → raised .intensityOutOfRange)
    (hphase : raised .notInitialized) (hhost : ∀ e, raised (.transportFailure e)) :
    RaisesOnly raised s (broadcast reg val s) :=
  raisesOnly_withInst fun inst => raisesOnly_ite
    (fun hbad => raisesOnly_raise rfl (hintensity (badIntensity_iff.1 hbad).1)) (raisesOnly_gated hphase hhost inst _)

end

/-- Every command raises only the errors the table gives it. -/
theorem raisesOnly_exec (i : Instr) (s : State) : RaisesOnly (RaisedBy i) s (exec i s) := by
  cases i with
  | new n mode =>
    simp only [exec, execNew]
    split
    · exact raisesOnly_refused _
    · refine raisesOnly_ite (fun _ => raisesOnly_refused _) (raisesOnly_ite (fun hn => ?_) (raisesOnly_respond rfl _))
      obtain rfl : n = 0 := BitVec.eq_of_toNat_eq hn
      exact raisesOnly_raise rfl ⟨mode, rfl⟩
  | deviceCount | bclear | glyphFor => exact raisesOnly_withInst fun _ => raisesOnly_respond rfl _
  | writeOne dev reg val =>
    refine raisesOnly_withInst fun inst => raisesOnly_ite (fun _ => raisesOnly_raise rfl (by simp [RaisedBy])) <|
      raisesOnly_ite (fun hbad => ?_) (raisesOnly_gated (by simp [RaisedBy]) (fun _ => rfl) inst _)
    obtain ⟨rfl, -⟩ := badIntensity_iff.1 hbad
    exact raisesOnly_raise rfl (by simp [RaisedBy])
  | writeBcast reg val =>
    exact raisesOnly_broadcast (fun hreg => by simp [RaisedBy, hreg]) (by simp [RaisedBy]) fun _ => rfl
  | setIntensity v => exact raisesOnly_broadcast (fun _ => by simp [RaisedBy]) (by simp [RaisedBy]) fun _ => rfl
  | writeAll reg vals =>
    refine raisesOnly_withInst fun inst => raisesOnly_ite (fun _ => raisesOnly_refused _) <|
      raisesOnly_ite (fun hbad => ?_) (raisesOnly_gated (by simp [RaisedBy]) (fun _ => rfl) inst _)
    obtain ⟨rfl, -⟩ := any_badIntensity_iff.1 hbad
    exact raisesOnly_raise rfl (by simp [RaisedBy])
  | init | pclear =>
    exact raisesOnly_withInst fun _ => raisesOnly_emitThen rfl (fun _ => rfl) (raisesOnly_respond rfl _)
  | setPixel dev row col on =>
    exact raisesOnly_inMode fun _ => raisesOnly_ite (fun _ => raisesOnly_raise rfl (by simp [RaisedBy])) <|
      raisesOnly_access fun _ => raisesOnly_access fun _ => raisesOnly_respond rfl _
  | getPixel | setDigit =>
    exact raisesOnly_inMode fun _ => raisesOnly_ite (fun _ => raisesOnly_raise rfl (by simp [RaisedBy])) <|
      raisesOnly_access fun _ => raisesOnly_respond rfl _
  | writeGlyph | getRow =>
    exact raisesOnly_withInst fun _ => raisesOnly_ite (fun _ => raisesOnly_raise rfl (by simp [RaisedBy])) <|
      raisesOnly_access fun _ => raisesOnly_respond rfl _
  | flush =>
    exact raisesOnly_withInst fun _ => raisesOnly_requireActive (by simp [RaisedBy]) <|
      raisesOnly_access fun _ => raisesOnly_emitThen rfl (fun _ => rfl) (raisesOnly_respond rfl _)
  | glyphForStrict ch =>
    exact raisesOnly_withInst fun _ =>
      raisesOnly_ite (fun _ => raisesOnly_respond rfl _) (raisesOnly_raise rfl ⟨ch, rfl⟩)
  | scrollStart tmode chars =>
    exact raisesOnly_inMode fun _ => raisesOnly_ite (fun _ => raisesOnly_refused _) (raisesOnly_respond rfl _)
  | scrollStep =>
    exact raisesOnly_inMode fun _ => raisesOnly_withScroll fun _ => raisesOnly_ite (fun _ => raisesOnly_respond rfl _) <|
      raisesOnly_access fun _ => raisesOnly_respond rfl _
  | scrollFinished => exact raisesOnly_inMode fun _ => raisesOnly_withScroll fun _ => raisesOnly_respond rfl _
  | scrollStop => exact raisesOnly_inMode fun _ => raisesOnly_respond rfl _

end Sys2Proof.Machine
end

section
/-! SUPPORT. Proofs about exceptions: how a command ends, what its errors are and leave, and a step without a command
(60_exceptions.md R220, R221, R229, R234). -/

namespace Sys2Proof.Machine

/-- Settles O3: with no record to take, the step is the branch that answers the state itself. -/
theorem stepWithoutARecordChangesNothing : Obligations.StepWithoutARecordChangesNothing := by
  intro s hinbox
  have hnone : takeRecord s = none := by simp only [takeRecord, hinbox]
  simp only [step, hnone]

/-- Settles O45: of the ways a command ends (`ends_exec`), the fault does not occur (`neverFaults_exec`). -/
theorem everyCommandAnswersExactlyOnceOrIsRefused : Obligations.EveryCommandAnswersExactlyOnceOrIsRefused := by
  intro i s
  have hends := ends_exec i s
  cases h : exec i s with
  | next t =>
    rw [h] at hends
    cases hends with
    | ok ht => exact .inl ⟨_, _, rfl, by rw [State.answer_responses, ht]⟩
    | error ht => exact .inl ⟨_, _, rfl, by rw [State.answer_responses, ht]⟩
  | fault f => exact absurd h (neverFaults_exec i s f)
  | refused why => exact .inr ⟨why, rfl⟩

/-- Settles O47: the table says who raises an error (`raisesOnly_exec`), and its inversion lemma (`exec_error`) what is left. -/
theorem errorsFollowTheStatusTable : Obligations.ErrorsFollowTheStatusTable := by
  refine ⟨fun bytes => rfl, fun e => rfl, fun i s t k h hr => ?_⟩
  have hraised : RaisedBy i k := raisesOnly_exec i s t k h hr
  cases exec_error h hr with
  | same hlocal ht =>
    cases k with
    | transportFailure e => exact absurd rfl (hlocal e)
    | zeroLengthChain | indexOutOfRange | intensityOutOfRange | notInitialized | unsupportedCharacter => exact ⟨ht, hraised⟩
  | emit _ hj hfails ht => exact ⟨hraised, _, _, ht ▸ transcript_of_failure hj hfails _ _⟩

/-- Settles O48: a transport failure is no local error, so the command has sent its frames up to the one the host failed. -/
theorem transportFailureLeavesWhatR229Says : Obligations.TransportFailureLeavesWhatR229Says := by
  intro i s t e h hr
  cases exec_error h hr with
  | same hlocal => exact absurd rfl (hlocal e)
  | @emit inst fs j _ hs hj hfails ht =>
    subst ht
    exact ⟨inst, { atEmit i inst with phase := .uninitialized }, fs.take j, fs[j], hs, rfl,
      transcript_of_failure hj hfails _ _, rfl, atEmit_n i inst, atEmit_mode i inst, atEmit_scroll i inst,
      fun hi => by rw [atEmit_of_ne_pclear hi], fun hi _ => by rw [hi]; rfl, rfl, rfl⟩

end Sys2Proof.Machine
end

section
/-! SUPPORT. What successful transactions tell an observer of the chain's registers (70_reset_and_hazards.md R252, R265). -/

namespace Sys2Proof.Machine

/-! ### The transcript of a command that answers Ok -/

/-- A command that answered Ok had a host that answered Ok to every frame, so its transactions all succeeded. -/
theorem Emits.transcript_of_ok {s t : State} {fs : List Frame} {done : State → State} {o : Outcome} {bytes : List Byte}
    (h : Emits s fs done o) (ho : o = .next t) (hr : t.responses = s.responses ++ [.ok bytes])
    (hdone : (done (s.sent fs)).transcript = (s.sent fs).transcript) : t.transcript = s.transcript ++ okEvents fs := by
  rcases hostOk_or_failsAt s fs.length with hok | ⟨k, e, hk, hfails⟩
  · obtain rfl := Host.Outcome.next.inj (ho.symm.trans (h.1 hok))
    rw [hdone, State.sent_transcript, State.eventsOf_of_hostOk hok]
  · obtain rfl := Host.Outcome.next.inj (ho.symm.trans (h.2 k e hk hfails))
    simp at hr

/-! ### The observer -/

section
variable {d : Nat} {code : Byte} {es : List Event} {fs : List Frame}

@[simp] theorem okEvents_nil : okEvents [] = [] := rfl

theorem okEvents_cons (f : Frame) (fs : List Frame) : okEvents (f :: fs) = transaction f .ok ++ okEvents fs := rfl

/-- A transaction that succeeded tells of the register that slot `d` names, and of no other. -/
theorem chainReg_append_transaction (f : Frame) : chainReg d code (es ++ transaction f .ok) =
    if f[2 * d]? = some code then f[2 * d + 1]? else chainReg d code es :=
  List.foldl_append

/-- Frames that do not name a register tell nothing new of it. -/
theorem chainReg_of_unwritten (h : ∀ f ∈ fs, f[2 * d]? ≠ some code) :
    chainReg d code (es ++ okEvents fs) = chainReg d code es := by
  induction fs generalizing es with
  | nil => rw [okEvents_nil, List.append_nil]
  | cons f fs ih =>
    obtain ⟨hf, hfs⟩ := List.forall_mem_cons.1 h
    rw [okEvents_cons, ← List.append_assoc, ih hfs, chainReg_append_transaction, if_neg hf]

/-- Frames of which one names a register, and all that name it carry the value `v`, tell that it holds `v`. -/
theorem chainReg_of_written {v : Byte} (hf : ∃ f ∈ fs, f[2 * d]? = some code)
    (hv : ∀ f ∈ fs, f[2 * d]? = some code → f[2 * d + 1]? = some v) :
    chainReg d code (es ++ okEvents fs) = some v := by
  induction fs generalizing es with
  | nil => simp at hf
  | cons f fs ih =>
    obtain ⟨hvf, hvfs⟩ := List.forall_mem_cons.1 hv
    rw [okEvents_cons, ← List.append_assoc]
    by_cases hlater : ∃ g ∈ fs, g[2 * d]? = some code
    · exact ih hlater hvfs
    · have hcode : f[2 * d]? = some code := by simpa [hlater] using hf
      rw [chainReg_of_unwritten fun g hg hgc => hlater ⟨g, hg, hgc⟩, chainReg_append_transaction, if_pos hcode, hvf hcode]

end

/-! ### The frames of `INIT` and `FLUSH` -/

section
variable {c : Config} {mode : Mode} {n d : Nat} {es : List Event}

theorem regCode_inj {r r' : Register} (h : regCode r = regCode r') : r = r' := by
  obtain ⟨-, -, -, -, -, -, -, hinj, -⟩ := registerCodesAreTheTableOfR72
  exact hinj r r' h

/-- `INIT` writes no register twice (41_register_protocol.md R110). -/
theorem initSeq_unique {reg : Register} {v v' : Byte} (h : (reg, v) ∈ initSeq c mode) (h' : (reg, v') ∈ initSeq c mode) :
    v = v' := by
  have hnodup : ((initSeq c mode).map Prod.fst).Nodup := by simp [initSeq]
  exact congrArg Prod.snd (List.inj_on_of_nodup_map hnodup h h' rfl)

/-- Slot `d` of a frame of `INIT` holds one of the pairs of R110. -/
theorem slot_initFrames {f : Frame} (hd : d < n) (hf : f ∈ initFrames c mode n) :
    ∃ p ∈ initSeq c mode, f[2 * d]? = some (regCode p.1) ∧ f[2 * d + 1]? = some p.2 := by
  obtain ⟨p, hp, rfl⟩ := List.mem_map.1 hf
  exact ⟨p, hp, (isFrame_bcast n p.1 p.2).2 d hd⟩

theorem chainReg_init_of_mem {reg : Register} {v : Byte} (hd : d < n) (h : (reg, v) ∈ initSeq c mode) :
    chainReg d (regCode reg) (es ++ okEvents (initFrames c mode n)) = some v := by
  refine chainReg_of_written ⟨_, List.mem_map_of_mem h, ((isFrame_bcast n reg v).2 d hd).1⟩ fun f hf hcode => ?_
  obtain ⟨⟨reg', v'⟩, hp, hreg, hval⟩ := slot_initFrames hd hf
  obtain rfl : reg' = reg := regCode_inj (Option.some.inj (hreg.symm.trans hcode))
  rw [hval, initSeq_unique hp h]

/-- `INIT` tells nothing of the Digit registers (70_reset_and_hazards.md R252). -/
theorem chainReg_init_digit {r : Nat} (hd : d < n) :
    chainReg d (regCode (digitReg r)) (es ++ okEvents (initFrames c mode n)) = chainReg d (regCode (digitReg r)) es := by
  refine chainReg_of_unwritten fun f hf hcode => ?_
  obtain ⟨p, hp, hreg, -⟩ := slot_initFrames hd hf
  have hdigit : p.1 = digitReg r := regCode_inj (Option.some.inj (hreg.symm.trans hcode))
  have hother : ∀ q ∈ initSeq c mode, q.1 ≠ digitReg r := by simp [initSeq, digitReg]
  exact hother p hp hdigit

/-- `FLUSH` tells of `Digit(r)` what row `r` of the buffer holds: its other rows name other registers. -/
theorem chainReg_flush {inst : Inst} {r : Nat} (hd : d < inst.n) (hr : r < rows c inst.mode) :
    chainReg d (BitVec.ofNat 8 (r + 1)) (es ++ okEvents (flushFrames c inst)) = some (inst.byteAt d r) := by
  have hslot {q : Nat} (hq : q < rows c inst.mode) := (isFrame_rowFrame inst (hq.trans_le (rows_le c inst.mode))).2 d hd
  refine chainReg_of_written ⟨rowFrame inst r, by simpa [flushFrames] using ⟨r, hr, rfl⟩, (hslot hr).1⟩ fun f hf hcode => ?_
  obtain ⟨q, hq, rfl⟩ : ∃ q < rows c inst.mode, rowFrame inst q = f := by simpa [flushFrames] using hf
  have hbyte : BitVec.ofNat 8 (q + 1) = BitVec.ofNat 8 (r + 1) := Option.some.inj ((hslot hq).1.symm.trans hcode)
  have hrows := rows_le c inst.mode
  obtain rfl : q = r := by
    have := congrArg BitVec.toNat hbyte
    simp only [BitVec.toNat_ofNat] at this
    omega
  exact (hslot hq).2

end

end Sys2Proof.Machine
end

section
/-! SUPPORT. Proofs about reset and hazards: the reset state, the warm reset, and what a scroll step, an `INIT` and a `FLUSH` make
certain (70_reset_and_hazards.md). -/

namespace Sys2Proof.Machine

/-! ### The reset state and the warm reset -/

/-- Settles O11: of an unconstructed block the invariant asks only that nothing has been sent. -/
theorem resetMeetsTheInvariant : Obligations.ResetMeetsTheInvariant :=
  ⟨State.reset_inst, State.reset_transcript,
    { inst_inv := fun _ h => by simp at h
      transcript_framed := fun _ h => by simp at h
      transcript_empty := fun _ => State.reset_transcript }⟩

/-- The transfers after those of some frames are the host's next ones. -/
theorem State.HostOk.sent {s : State} {fs : List Frame} {k : Nat} (h : s.HostOk (fs.length + k)) : (s.sent fs).HostOk k :=
  fun j hj => by rw [State.resultAt_sent, h _ (Nat.add_lt_add_left hj _)]

theorem State.HostOk.mono {s : State} {k k' : Nat} (h : s.HostOk k') (hk : k ≤ k') : s.HostOk k :=
  fun j hj => h j (hj.trans_le hk)

/-- `INIT` and `PCLEAR` send thirteen frames and leave the block `Active` with a zeroed buffer. -/
theorem runCommands_init_pclear {s : State} {inst : Inst} (hs : s.inst = some inst) (hok : s.HostOk 13) :
    ∃ t, (∀ is, runCommands (.init :: .pclear :: is) s = runCommands is t) ∧
      t.inst = some { inst with phase := .active, buf := [] } := by
  have hinit : exec .init s = .next _ := (execInit_emits hs).1 (hok.mono (by simp [initFrames, initSeq]))
  have hactive : (((s.sent (initFrames s.cfg inst.mode inst.n)).setPhase .active).answer (.ok [])).inst =
      some { inst with phase := .active } := by simp [hs]
  have hok8 : (s.sent (initFrames s.cfg inst.mode inst.n)).HostOk 8 := State.HostOk.sent hok
  have hpclear : exec .pclear _ = .next _ := (execPclear_emits hactive).1 hok8
  exact ⟨_, fun is => (runCommands_cons hinit _).trans (runCommands_cons hpclear is), rfl⟩

/-- Settles O57: after `INIT` and `PCLEAR` only the scroll is left, which matrix mode alone has and `SCROLL_STOP` discards. -/
theorem warmResetGivesAnActiveClearedBlock : Obligations.WarmResetGivesAnActiveClearedBlock := by
  intro s inst hs hok
  obtain ⟨t, hrun, ht⟩ := runCommands_init_pclear hs hok
  by_cases hm : inst.mode = .matrix
  · rw [if_pos hm]
    exact ⟨_, _, (hrun [.scrollStop]).trans (runCommands_cons (exec_scrollStop ht hm) []), rfl, rfl,
      fun d r => Memory.read_nil _, rfl, rfl, fun _ => rfl⟩
  · rw [if_neg hm]
    exact ⟨t, _, hrun [], ht, rfl, fun d r => Memory.read_nil _, rfl, rfl, fun h => absurd h hm⟩

/-! ### What a scroll step forgets -/

/-- A byte outside the addresses of a memory's entries reads as 0x00. -/
theorem Memory.read_of_le {m : Memory} {a b : Nat} (hm : ∀ cell ∈ m, cell.1 < b) (h : b ≤ a) : Memory.read m a = 0x00#8 :=
  by_contra fun hne => absurd (hm _ (Memory.mem_of_read hne)) (Nat.not_lt.2 h)

/-- `SCROLL_STEP` is refused outside matrix mode, whatever the buffer holds (30_encoding.md R88 (e)). -/
theorem exec_scrollStep_wrongMode {s : State} {inst : Inst} (hs : s.inst = some inst) (hm : inst.mode ≠ .matrix) :
    exec .scrollStep s = .refused (.wrongMode inst.mode) := by
  rw [exec, execScrollStep, inMode_wrong hs hm]

/-- Settles O34: the two steps leave canonical buffers that read alike, the window inside the chain's rows and 0x00 outside. -/
theorem scrollStepForgetsTheOldBuffer : Obligations.ScrollStepForgetsTheOldBuffer := by
  intro s inst m st hs hst hgo hwf hwf' hin hin'
  by_cases hm : inst.mode = .matrix
  · obtain ⟨w, hexec, hwindow⟩ := exec_scrollStep_advance hs hm hst hgo
    obtain ⟨w', hexec', hwindow'⟩ := exec_scrollStep_advance (s := s.setInst { inst with buf := m }) rfl hm hst hgo
    obtain ⟨hw, hread⟩ := hwindow hwf
    obtain ⟨hw', hread'⟩ := hwindow' hwf'
    obtain rfl : w' = w := Memory.wf_ext hw' hw fun a => by
      rw [hread, hread']
      by_cases ha : a < 8 * inst.n
      · simp only [if_pos ha, State.setInst_cfg]
      · simp only [if_neg ha, Memory.read_of_le hin (Nat.not_lt.1 ha), Memory.read_of_le hin' (Nat.not_lt.1 ha)]
    rw [hexec, hexec', State.setInst_setInst]
  · exact (exec_scrollStep_wrongMode (s := s.setInst { inst with buf := m }) rfl hm).trans
      (exec_scrollStep_wrongMode hs hm).symm

/-! ### What the transcript tells of the registers -/

/-- Settles O55: all frames of `INIT` succeeded, and they are the five pairs of R110, for every slot. -/
theorem initSetsFiveRegistersAndNoDigit : Obligations.InitSetsFiveRegistersAndNoDigit := by
  intro s t inst hs h hr d hd
  rw [(execInit_emits hs).transcript_of_ok h hr rfl]
  refine ⟨chainReg_init_of_mem (reg := .displayTest) hd (by simp [initSeq]),
    chainReg_init_of_mem (reg := .decodeMode) hd (by simp [initSeq, decodeValue_eq_zero]),
    chainReg_init_of_mem (reg := .scanLimit) hd (by simp [initSeq]),
    chainReg_init_of_mem (reg := .intensity) hd (by simp [initSeq, Config.intensityByte]),
    chainReg_init_of_mem (reg := .shutdown) hd (by simp [initSeq]), fun r hr8 => ?_⟩
  rw [← regCode_digitReg hr8]
  exact chainReg_init_digit hd

/-- Settles O56: a `FLUSH` that answered Ok passed the gate, and its frames are the rows in use (`chainReg_flush`). -/
theorem afterFlushTheChainAgreesWithTheBuffer : Obligations.AfterFlushTheChainAgreesWithTheBuffer := by
  intro s t inst hs h hr d r hd hrow
  cases hp : inst.phase with
  | uninitialized =>
    obtain rfl := Host.Outcome.next.inj (h.symm.trans (execFlush_uninitialized hs hp))
    simp at hr
  | active =>
    rw [(execFlush_emits hs hp).transcript_of_ok h hr rfl]
    exact chainReg_flush hd hrow

end Sys2Proof.Machine
end
